-- ==== Sys2Proof/Word.lean ====
section
/-! DEFINITION. The widths the spec gives its data: bytes, instruction words and vector registers
(00_scope.md R6, R8, R9). -/

namespace Sys2Proof

/-- A byte: an element of a vector register, a selector of the permute mask, or a cell of memory. -/
abbrev Byte := BitVec 8

/-- An instruction word, 32 bits (R8, R60). -/
abbrev Word := BitVec 32

/-- The contents of one vector register: VLEN = 128 bits (R6, R20). Its 16-byte view, the one view
the instructions use (R22), is `vecByte` and `vecOfBytes` in Machine/Operands.lean. -/
abbrev Vec128 := BitVec 128

end Sys2Proof
end

