-- ==== Sys2Proof/Syntax.lean ====
section
/-! DEFINITION. The instructions: one constructor for each row of spec/opcode_table.json. -/

namespace Sys2Proof

/-- A vector register number, 0 to 127 (10_state.md R20: NVR = 128 registers). -/
abbrev VReg := Fin 128

/-- The instruction set in scope (00_scope.md R2). The operands stand in the order of the assembler
syntax: destination, source A, source B, source C (30_encoding.md R76). Which numbers each
instruction can name is `Instr.wf`. -/
inductive Instr where
  /-- `vperm vD, vA, vB, vC`, form VA (R62, R81). -/
  | vperm (vd va vb vc : VReg)
  /-- `vperm128 vD, vA, vB, vC`, form VX128_2 (R63, R82). -/
  | vperm128 (vd va vb vc : VReg)
deriving DecidableEq, Repr

end Sys2Proof
end

