-- ==== Sys2Proof/WellFormed.lean ====
section
/-! DEFINITION. Which terms of `Instr` have an encoding (30_encoding.md R67, R76). -/

namespace Sys2Proof

/-- Every operand is a register number its field can hold: 0 to 31 for the four 5-bit fields of
`vperm`; 0 to 127 for VD, VA and VB and 0 to 7 for the 3-bit VC of `vperm128` (R68 to R72, R76: an
operand out of these ranges has no encoding). -/
def Instr.wf : Instr → Bool
  | .vperm vd va vb vc =>
    decide (vd.val < 32) && decide (va.val < 32) && decide (vb.val < 32) && decide (vc.val < 32)
  | .vperm128 _ _ _ vc => decide (vc.val < 8)

end Sys2Proof
end

