-- ==== Sys2Proof/Decode.lean ====
section
/-! DEFINITION. Decoding, encoding and the assembler text of instructions (30_encoding.md). -/

namespace Sys2Proof

/-- Why bytes are no instruction of this spec. -/
inductive DecodeRefusal where
  /-- The word is neither `vperm` nor `vperm128` (R66, decision D11). -/
  | wordNotSpecified
  /-- Fewer than the 4 bytes of an instruction (R60). -/
  | truncated
deriving DecidableEq, Repr

/-- `W{i:j}`: the field of bits `i` to `j` of a word, bit 0 the most significant, as an unsigned
integer (00_scope.md R8: `(W >> (31 - j)) & (2^(j - i + 1) - 1)`). -/
def field (w : Word) (i j : Nat) : Nat :=
  (w.toNat >>> (31 - j)) &&& (2 ^ (j - i + 1) - 1)

/-- The register a number names. Every number the fields below give is under 128 (R67). -/
def vreg (n : Nat) : VReg := Fin.ofNat 128 n

/-- Destination of form VX128_2 (R69). Bit 28 is the more significant of VD128h: decision D9, log
entry 11. -/
def vd128 (w : Word) : Nat := field w 28 29 * 32 + field w 6 10

/-- Source A of form VX128_2 (R70): VA128H is bit 21, VA128h is bit 26. -/
def va128 (w : Word) : Nat := field w 21 21 * 64 + field w 26 26 * 32 + field w 11 15

/-- Source B of form VX128_2 (R71). Bit 30 is the more significant of VB128h: decision D9, log
entry 11. -/
def vb128 (w : Word) : Nat := field w 30 31 * 32 + field w 16 20

/-- Source C of form VX128_2 (R72): registers 0 to 7 directly, decision D10, log entry 12. -/
def vc128 (w : Word) : Nat := field w 23 25

/-- A word is `vperm` exactly when this holds (R64). -/
def isVperm (w : Word) : Bool := w &&& 0xFC00003F#32 == 0x1000002B#32

/-- A word is `vperm128` exactly when this holds (R65; bits 22 and 27 by decision D8, log
entry 10). -/
def isVperm128 (w : Word) : Bool := w &&& 0xFC000210#32 == 0x14000000#32

/-- The decode function, total on words (R66). -/
def decodeWord (w : Word) : Except DecodeRefusal Instr :=
  if isVperm w then
    .ok (.vperm (vreg (field w 6 10)) (vreg (field w 11 15)) (vreg (field w 16 20))
      (vreg (field w 21 25)))
  else if isVperm128 w then
    .ok (.vperm128 (vreg (vd128 w)) (vreg (va128 w)) (vreg (vb128 w)) (vreg (vc128 w)))
  else .error .wordNotSpecified

/-- Four bytes as a word, the first the most significant (20_memory.md R44, decision D6, log
entry 6). -/
def wordOfBytes (b0 b1 b2 b3 : Byte) : Word := b0 ++ b1 ++ b2 ++ b3

/-- The four bytes of a word in the order they lie in memory (R44). -/
def bytesOfWord (w : Word) : List Byte :=
  [w.extractLsb' 24 8, w.extractLsb' 16 8, w.extractLsb' 8 8, w.extractLsb' 0 8]

/-- Decodes the instruction at the head of `bs`, and gives what follows it. Every instruction is 4
bytes long (R60). -/
def decodeBytes (bs : List Byte) : Except DecodeRefusal (Instr × List Byte) :=
  match bs with
  | b0 :: b1 :: b2 :: b3 :: rest =>
    match decodeWord (wordOfBytes b0 b1 b2 b3) with
    | .ok i => .ok (i, rest)
    | .error e => .error e
  | _ => .error .truncated

/-- `enc_vperm` (R73). -/
def encVperm (vd va vb vc : Nat) : Word :=
  BitVec.ofNat 32 (0x1000002B ||| vd <<< 21 ||| va <<< 16 ||| vb <<< 11 ||| vc <<< 6)

/-- `enc_vperm128` (R73). -/
def encVperm128 (vd va vb vc : Nat) : Word :=
  BitVec.ofNat 32
    (0x14000000 ||| (vd &&& 31) <<< 21 ||| (va &&& 31) <<< 16 ||| (vb &&& 31) <<< 11 |||
      ((va >>> 6) &&& 1) <<< 10 ||| vc <<< 6 ||| ((va >>> 5) &&& 1) <<< 5 |||
      ((vd >>> 5) &&& 3) <<< 2 ||| ((vb >>> 5) &&& 3))

/-- The word of an instruction; meant for well-formed ones (R73). -/
def encode : Instr → Word
  | .vperm vd va vb vc => encVperm vd.val va.val vb.val vc.val
  | .vperm128 vd va vb vc => encVperm128 vd.val va.val vb.val vc.val

/-- The bytes of an instruction as they lie in memory (R44, R73). -/
def encodeBytes (i : Instr) : List Byte := bytesOfWord (encode i)

/-- The operands as assembly text, `vN` with `N` in decimal (R76, R78; the spelling is decision D22,
log entry 13). -/
def operandText (vd va vb vc : VReg) : String :=
  "v" ++ Nat.repr vd.val ++ ", v" ++ Nat.repr va.val ++ ", v" ++ Nat.repr vb.val ++
    ", v" ++ Nat.repr vc.val

/-- The canonical assembly text of an instruction (R78). -/
def Instr.text : Instr → String
  | .vperm vd va vb vc => "vperm " ++ operandText vd va vb vc
  | .vperm128 vd va vb vc => "vperm128 " ++ operandText vd va vb vc

/-- The host's question to the decoder: the instruction read from one word of the opcode table, its
bits above `nbits` zero, laid out in memory order. -/
def decodeTableWord (nbits w : Nat) : Option Instr :=
  match decodeBytes (bytesOfWord (BitVec.ofNat 32 (w % 2 ^ nbits))) with
  | .ok (i, _) => some i
  | .error _ => none

end Sys2Proof
end

