-- ==== Sys2Proof/Machine/Operands.lean ====
section
/-! DEFINITION. The 16-byte view of a vector register and the permute function on it (00_scope.md
R9, 40_vector_permute.md R80). -/

namespace Sys2Proof.Machine

/-- `v.b[i]`: byte `i` of a register, byte 0 the most significant (R9: `(V >> (8 * (15 - i))) & 0xFF`). -/
def vecByte (v : Vec128) (i : Fin 16) : Byte :=
  (v >>> (8 * (15 - i.val))).setWidth 8

/-- The register value whose byte `i` is `f i`, byte 0 the most significant (R9). -/
def vecOfBytes (f : Fin 16 → Byte) : Vec128 :=
  f 0 ++ f 1 ++ f 2 ++ f 3 ++ f 4 ++ f 5 ++ f 6 ++ f 7 ++
    f 8 ++ f 9 ++ f 10 ++ f 11 ++ f 12 ++ f 13 ++ f 14 ++ f 15

/-- The byte of the pair `a`, `b` that one selector byte chooses: the low five bits count through the
16 bytes of `a` and then those of `b`, and the upper three are ignored (R80, R83). -/
def selectByte (a b : Vec128) (sel : Byte) : Byte :=
  let idx := (sel &&& 0x1F#8).toNat
  if idx < 16 then vecByte a (Fin.ofNat 16 idx) else vecByte b (Fin.ofNat 16 (idx - 16))

/-- `PERM(a, b, c)` (R80): byte `i` of the result is chosen by byte `i` of `c`. -/
def perm (a b c : Vec128) : Vec128 :=
  vecOfBytes fun i => selectByte a b (vecByte c i)

end Sys2Proof.Machine
end

