-- ==== Sys2Proof/Config.lean ====
section
/-! DEFINITION. What the source leaves open at launch (00_scope.md R7, 10_state.md R33).

The spec's fixed parameters (R6) stand in the types: 128 registers in `VReg`, 128 bits in `Vec128`,
32 bits in `Word`, and the ranges 0 to 31 and 0 to 7 in `Instr.wf`.

The constants below without a body are FREE VALUES: nothing can be proved of them but that they are
one value each. They are what the registers hold in `State.reset`, because the spec gives no reset
value and forbids assuming zero (R33, decision D16). DESIGN CHOICE, log entry 1. -/

namespace Sys2Proof

/-- What vector register `n` holds at launch: any value (R33, D16). -/
opaque Config.launchVr (n : Nat) : Vec128

/-- What the general registers hold at launch, in number order; neither their count nor their width
is in any source (R30, 91_not_in_source.md N5). -/
opaque Config.launchGpr : List Nat

/-- What the floating-point registers hold at launch, as for `Config.launchGpr` (R30, N5). -/
opaque Config.launchFpr : List Nat

/-- The fields of the condition register at launch, in field order (R27, N6). -/
opaque Config.launchCr : List Nat

/-- The field CA of the XER at launch (R27, N6). -/
opaque Config.launchXerCA : Nat

/-- The field OV of the XER at launch (R27, N6). -/
opaque Config.launchXerOV : Nat

/-- The field SO of the XER at launch (R27, N6). -/
opaque Config.launchXerSO : Nat

/-- What the XER holds beside CA, OV and SO at launch (R27, table of R33). -/
opaque Config.launchXerOther : Nat

/-- The VSCR at launch (R27, N7). -/
opaque Config.launchVscr : Nat

/-- Every register the sources do not name at all, at launch (R28). -/
opaque Config.launchOther : List Nat

/-- PC_BITS of `State.reset`: the value decision D3 suggests, from general knowledge (entry G7).
PRESUMED, log entry 9. The parameter itself is `State.pcBits`, and claims quantify over it. -/
def Config.resetPcBits : Nat := 32

end Sys2Proof
end

