-- ==== Sys2Proof/Machine/State.lean ====
section
/-! DEFINITION. The state of the machine (10_state.md), why a step can stop, and the state after
reset. -/

namespace Sys2Proof.Machine

/-- Bytes by address, addresses strictly rising. An unlisted address holds no byte (log entries 4 and
5), so no listed cell can equal what an unlisted one reads as. The form is `Memory.wf` in
Machine/Ops.lean. -/
abbrev Memory := List Host.Cell

/-- The component `rest` (R28, decision D24): everything the processor holds beside `VR` and `pc`,
which no rule reads and no rule changes. The registers the source names stand under their names. No
source gives a count, width or layout of any of them (N5 to N7), so each is held as plain numbers of
any size, and nothing is assumed (log entry 3). -/
structure Rest where
  /-- General registers `r[N]` (R30). -/
  gpr : List Nat
  /-- Floating-point registers `f[]` (R30). -/
  fpr : List Nat
  /-- Condition register: its fields, selected by a number (R27). -/
  cr : List Nat
  /-- XER field CA (R27). -/
  xerCA : Nat
  /-- XER field OV (R27). -/
  xerOV : Nat
  /-- XER field SO (R27). -/
  xerSO : Nat
  /-- The rest of the XER (table of R33). -/
  xerOther : Nat
  /-- Vector status and control register (R27). -/
  vscr : Nat
  /-- Machine-state, special-purpose and system registers no source names (R28). -/
  other : List Nat
  /-- Data memory, reached by instructions outside this spec only (R31, R40, decision D18). -/
  mem : Memory
deriving DecidableEq, Repr

/-- The state: the spec's triple `(VR, pc, rest)` (R20, R24, R28), and beside it the launch's
parameters and premises (R120), which no step changes: a step is a function of the state alone, so
they stand here (log entries 5, 7, 8, 9). -/
structure State where
  /-- The vector register file, shared by both instructions (R20, R21). -/
  vr : Vector Vec128 128
  /-- The program counter: the byte address of the current instruction, below `2 ^ pcBits` (R24). -/
  pc : Nat
  /-- Everything else the processor holds (R28). -/
  rest : Rest
  /-- `TEXT`, the program text, as bytes (R7, 20_memory.md R44, R46). -/
  text : Memory
  /-- The end address `base + 4 * n` of the program that was launched, if one was (R127). -/
  endAddr : Option Nat
  /-- `VEC_ENABLED`: the vector unit is available (R101). -/
  vecEnabled : Bool
  /-- `PC_BITS`: the width of the program counter (R7, R24). -/
  pcBits : Nat
deriving DecidableEq, Repr

/-- Why the machine stops for good. No instruction of this spec raises an exception (R88, R100), so
no constructor stands for one. -/
inductive Fault where
  /-- `pc` is the end address: the run is over and the state is final (R127, decision D23). Raised
  by the fetch. Safe: the model shows no step where the processor would go on. -/
  | endOfRun
deriving DecidableEq, Repr

/-- The situations the spec orders a model to refuse (00_scope.md R14). Each is safe: the model
gives no step where the processor would do something no source describes. -/
inductive Refusal where
  /-- An instruction that has no meaning yet. Raised by no arm of `exec`. Safe. -/
  | notModelled (mnemonic : String)
  /-- The word at `pc` is not decoded (R66, U1). Raised by the fetch. Safe. -/
  | wordNotSpecified
  /-- `pc + 4 >= 2 ^ PC_BITS` (R25, U2). Raised by both instructions. Safe. -/
  | pcOverflow
  /-- `pc` is no multiple of 4 (R26, U3). Raised by the fetch. Safe. -/
  | pcMisaligned
  /-- `pc` is outside the domain of `TEXT` and not the end address (R44, U4). Raised by the fetch.
  Safe. -/
  | noInstructionAtPc
  /-- `VEC_ENABLED` is false (R101, U5). Raised by both instructions. Safe. -/
  | vectorUnitUnavailable
deriving DecidableEq, Repr

/-- The state the model calls reset. The spec gives no reset value of anything (R33, R120), so every
register holds a free value of Config (log entry 1), `pc` is 0 (log entry 2), no memory is listed
(log entries 4 and 5), no program is placed (log entries 5 and 7), the premise `VEC_ENABLED` holds
(log entry 8), and PC_BITS is 32 (log entry 9). -/
def State.reset : State where
  vr := Vector.ofFn fun i => Config.launchVr i.val
  pc := 0
  rest :=
    { gpr := Config.launchGpr
      fpr := Config.launchFpr
      cr := Config.launchCr
      xerCA := Config.launchXerCA
      xerOV := Config.launchXerOV
      xerSO := Config.launchXerSO
      xerOther := Config.launchXerOther
      vscr := Config.launchVscr
      other := Config.launchOther
      mem := [] }
  text := []
  endAddr := none
  vecEnabled := true
  pcBits := Config.resetPcBits

end Sys2Proof.Machine
end

