-- ==== Sys2Proof/Machine/Ops.lean ====
section
/-! DEFINITION. The operations every meaning is made of: reading and writing memory and vector
registers, moving the program counter, fetching an instruction, launching a program, and the one
permute step that both instructions share.

There is no operation that takes an exception and none that returns from one: no event of this spec
causes a trap and no source describes the mechanism (60_exceptions.md R100, R104; log entry 14). -/

namespace Sys2Proof.Machine

/-! ### Memory -/

/-- The canonical form: addresses strictly rising. -/
def Memory.wf : Memory → Bool
  | [] => true
  | (a, _) :: m =>
    (match m with
      | [] => true
      | (a', _) :: _ => decide (a < a')) && Memory.wf m

/-- The byte at an address, if the address holds one. -/
def Memory.read (m : Memory) (a : Nat) : Option Byte :=
  match m with
  | [] => none
  | (a', b) :: m => if a = a' then some b else Memory.read m a

/-- Puts a byte at an address and keeps the canonical form. -/
def Memory.write (m : Memory) (a : Nat) (b : Byte) : Memory :=
  match m with
  | [] => [(a, b)]
  | (a', b') :: m =>
    if a < a' then (a, b) :: (a', b') :: m
    else if a = a' then (a, b) :: m
    else (a', b') :: Memory.write m a b

/-- The `n` bytes from `a` on, if each of the addresses holds one. -/
def Memory.readBytes (m : Memory) (a : Nat) : Nat → Option (List Byte)
  | 0 => some []
  | n + 1 =>
    match Memory.read m a, Memory.readBytes m (a + 1) n with
    | some b, some bs => some (b :: bs)
    | _, _ => none

/-- Puts bytes at `a` and the addresses after it. -/
def Memory.writeBytes (m : Memory) (a : Nat) : List Byte → Memory
  | [] => m
  | b :: bs => Memory.writeBytes (Memory.write m a b) (a + 1) bs

/-- Puts a word at `a`, the most significant byte at the lowest address (20_memory.md R42, R44). -/
def Memory.writeWord (m : Memory) (a : Nat) (w : Word) : Memory :=
  Memory.writeBytes m a (bytesOfWord w)

/-! ### Vector registers -/

/-- `VR[n]` (10_state.md R20). No register is hardwired. -/
def State.readVr (s : State) (n : VReg) : Vec128 := s.vr[n.val]

/-- `VR[n] <- v`: all 16 bytes (R23). -/
def State.writeVr (s : State) (n : VReg) (v : Vec128) : State :=
  { s with vr := s.vr.set n.val v }

/-! ### The program counter -/

/-- `pc <- p` (00_scope.md R11). -/
def State.withPc (s : State) (p : Nat) : State := { s with pc := p }

/-- `pc <- pc + 4`, or the refusal "pc overflow" at the top of the address space (R25, decision D4,
log entry 15). -/
def advancePc (s : State) : Host.Outcome State Fault Refusal :=
  if 2 ^ s.pcBits ≤ s.pc + 4 then .refused .pcOverflow
  else .next (s.withPc (s.pc + 4))

/-! ### The step both instructions share -/

/-- All three reads, then the write of all 16 bytes, then the advance (40_vector_permute.md R81,
R82, R86). With the vector unit unavailable the permute is not executed (60_exceptions.md R101);
that this is looked at before the room for `pc + 4` is log entry 22. -/
def permuteStep (vd va vb vc : VReg) (s : State) : Host.Outcome State Fault Refusal :=
  if s.vecEnabled then
    let a := s.readVr va
    let b := s.readVr vb
    let c := s.readVr vc
    advancePc (s.writeVr vd (perm a b c))
  else .refused .vectorUnitUnavailable

/-! ### Fetch -/

/-- The instruction at `pc`. At the end address the run is over and nothing is fetched
(70_reset_and_hazards.md R127); a misaligned `pc` (R26, decision D5, log entry 16), a `pc` outside
the domain of `TEXT` (20_memory.md R44) and a word that is not decoded (R66) are refused. `pc` is
the key of `TEXT` as it stands, untranslated (R48). -/
def fetch (s : State) : Host.Outcome Instr Fault Refusal :=
  if s.endAddr = some s.pc then .fault .endOfRun
  else if s.pc % 4 ≠ 0 then .refused .pcMisaligned
  else
    match Memory.readBytes s.text s.pc 4 with
    | none => .refused .noInstructionAtPc
    | some bs =>
      match decodeBytes bs with
      | .ok (i, _) => .next i
      | .error _ => .refused .wordNotSpecified

/-! ### Launch -/

/-- The text of a program: its words at `base`, `base + 4`, and so on, and nothing else (R127). -/
def programText (base : Nat) : List Word → Memory
  | [] => []
  | w :: ws => Memory.writeWord (programText (base + 4) ws) base w

/-- The launch of a program of `n` words at `base`: `TEXT` is exactly its map, `pc = base`, and the
end address is `base + 4 * n` (R120, R127). Registers, premises and PC_BITS stay as `s` has them. -/
def State.launchProgram (s : State) (base : Nat) (ws : List Word) : State :=
  { s with text := programText base ws, pc := base, endAddr := some (base + 4 * ws.length) }

end Sys2Proof.Machine
end

