-- ==== Sys2Proof/Machine/VectorPermute.lean ====
section
/-! DEFINITION. The Vector Permute family: the meanings of `vperm` and `vperm128`
(40_vector_permute.md). They differ only in how an instruction word names their registers. -/

namespace Sys2Proof.Machine

/-- `vperm` (R81): `VR[VD] <- PERM(VR[VA], VR[VB], VR[VC])`, then `pc <- pc + 4`. -/
def execVperm (vd va vb vc : VReg) (s : State) : Host.Outcome State Fault Refusal :=
  permuteStep vd va vb vc s

/-- `vperm128` (R82): the same computation, the register numbers taken from form VX128_2. -/
def execVperm128 (vd va vb vc : VReg) (s : State) : Host.Outcome State Fault Refusal :=
  permuteStep vd va vb vc s

end Sys2Proof.Machine
end

