-- ==== Sys2Proof/Machine/Dispatch.lean ====
section
/-! DEFINITION. Which meaning each instruction has. -/

namespace Sys2Proof.Machine

def exec (i : Instr) (s : State) : Host.Outcome State Fault Refusal :=
  match i with
  | .vperm vd va vb vc => Sys2Proof.Machine.execVperm vd va vb vc s
  | .vperm128 vd va vb vc => Sys2Proof.Machine.execVperm128 vd va vb vc s

end Sys2Proof.Machine
end

