-- ==== Sys2Proof/Machine/Step.lean ====
section
/-! DEFINITION. One step of the machine: fetch, decode and execute one instruction, as one atomic
transition (00_scope.md R12). -/

namespace Sys2Proof.Machine

/-- One step. Nothing is added around `exec`: each instruction moves `pc` itself (R25). -/
def step (s : State) : Host.Outcome State Fault Refusal :=
  match fetch s with
  | .next i => exec i s
  | .fault f => .fault f
  | .refused r => .refused r

/-- `s` with a word placed at `pc` in `TEXT`, big-endian, and no end of run declared at `pc`: it
stands for the launch's loading of the program text (log entry 6). -/
def State.withFetchWord (s : State) (nbits w : Nat) : State :=
  { s with
    text := Memory.writeWord s.text s.pc (BitVec.ofNat 32 (w % 2 ^ nbits))
    endAddr := if s.endAddr = some s.pc then none else s.endAddr }

end Sys2Proof.Machine
end

