-- ==== Sys2Proof/Machine/Flags.lean ====
section
/-! DEFINITION. The status registers the source names (10_state.md R27). The spec gives no flag
computation: neither instruction writes or reads any flag (40_vector_permute.md R87). What stands
here is where each status register is read from, for claims to say that it is unchanged. -/

namespace Sys2Proof.Machine

/-- The condition register, its fields in order (R27). -/
def State.cr (s : State) : List Nat := s.rest.cr

/-- The XER: CA, OV, SO and the rest of it (R27). -/
def State.xer (s : State) : List Nat :=
  [s.rest.xerCA, s.rest.xerOV, s.rest.xerSO, s.rest.xerOther]

/-- The vector status and control register (R27). -/
def State.vscr (s : State) : Nat := s.rest.vscr

end Sys2Proof.Machine
end

