-- ==== Sys2Proof/Safety.lean ====
section
/-! DEFINITION. The terms claims are stated in: the invariant of the state, a launch that meets its
premises, an instruction waiting at `pc`, and what two states share when a step may not touch it. -/

namespace Sys2Proof.Machine

/-- The end address, where there is one, is aligned and outside the domain of `TEXT` (R127). -/
def State.endOk (s : State) : Bool :=
  match s.endAddr with
  | none => true
  | some e => decide (e % 4 = 0) && (Memory.read s.text e).isNone

/-- What every launch has and every step keeps: `pc` is a multiple of 4 (R26) and a number of
PC_BITS bits (R24), the end address is one R127 allows, and both memories are in canonical form. -/
abbrev State.Inv (s : State) : Prop :=
  s.pc % 4 = 0 ∧ s.pc < 2 ^ s.pcBits ∧ s.endOk = true ∧
    Memory.wf s.text = true ∧ Memory.wf s.rest.mem = true

/-- The conditions under which an instruction executes (R25, R101): the vector unit is available and
`pc + 4` is a number of PC_BITS bits. -/
abbrev State.Enabled (s : State) : Prop :=
  s.vecEnabled = true ∧ s.pc + 4 < 2 ^ s.pcBits

/-- The word at address `a` of `TEXT` is instruction `i` (R44, R66). -/
def State.InstrAt (s : State) (a : Nat) (i : Instr) : Prop :=
  ∃ bs tail, Memory.readBytes s.text a 4 = some bs ∧ decodeBytes bs = .ok (i, tail)

/-- The two states have the same launch parameters and premises (R7, R120). -/
abbrev State.SameLaunch (s t : State) : Prop :=
  t.text = s.text ∧ t.endAddr = s.endAddr ∧ t.vecEnabled = s.vecEnabled ∧ t.pcBits = s.pcBits

/-- `s` with another component `rest` (R28). -/
def State.withRest (s : State) (r : Rest) : State := { s with rest := r }

/-- `s` with another data memory (R31). -/
def State.withMem (s : State) (m : Memory) : State := s.withRest { s.rest with mem := m }

/-- A launch that meets its premises (R120): the state is one the invariant allows, the vector unit
is available, and `pc` is in the domain of `TEXT`. -/
abbrev State.LaunchOk (s : State) : Prop :=
  s.Inv ∧ s.vecEnabled = true ∧ (Memory.readBytes s.text s.pc 4).isSome = true

/-- `n` steps, stopping where a step stops (R126: a step is one instruction). -/
def runSteps : Nat → State → Host.Outcome State Fault Refusal
  | 0, s => .next s
  | n + 1, s =>
    match step s with
    | .next t => runSteps n t
    | .fault f => .fault f
    | .refused r => .refused r

/-- The register an instruction writes (10_state.md R23). -/
def destOf : Instr → VReg
  | .vperm vd _ _ _ => vd
  | .vperm128 vd _ _ _ => vd

/-- `PERM` of what an instruction's three source registers hold in `s` (R23, R81, R82). -/
def resultOf (i : Instr) (s : State) : Vec128 :=
  match i with
  | .vperm _ va vb vc => perm (s.readVr va) (s.readVr vb) (s.readVr vc)
  | .vperm128 _ va vb vc => perm (s.readVr va) (s.readVr vb) (s.readVr vc)

/-- `T`, the 32 bytes of the pair: those of `a`, then those of `b` (40_vector_permute.md R84). -/
def pairByte (a b : Vec128) (k : Fin 32) : Byte :=
  if k.val < 16 then vecByte a (Fin.ofNat 16 k.val) else vecByte b (Fin.ofNat 16 (k.val - 16))

/-- The low five bits of byte `i` of a mask: the index the selector chooses (R80). -/
def selIndex (c : Vec128) (i : Fin 16) : Nat := (vecByte c i &&& 0x1F#8).toNat

end Sys2Proof.Machine
end

