-- ==== Sys2Proof/Certificates/Slice0/Obligations.lean ====
section
/-! DEFINITION. The statements for the provers. Each docstring names the rule of spec/ it formalises.
Where a clause rests on a decision of the spec or of this model, the docstring names it. -/

open Sys2Proof Sys2Proof.Machine

/-! ### The permute function (40_vector_permute.md section 1) -/

/-- R80. Byte `i` of `PERM(a, b, c)` is byte `idx` of `a` when `idx` is below 16 and byte `idx - 16`
of `b` otherwise, `idx` being the low five bits of byte `i` of `c`, at most 31; and it depends on
nothing but byte `i` of `c` and that one byte. -/
def Obligations.PermSelectsEachByte : Prop :=
  (∀ c i, selIndex c i ≤ 31) ∧
  (∀ a b c i (k : Fin 16), selIndex c i = k.val → vecByte (perm a b c) i = vecByte a k) ∧
  (∀ a b c i (k : Fin 16), selIndex c i = 16 + k.val → vecByte (perm a b c) i = vecByte b k) ∧
  (∀ a b c a' b' c' i, vecByte c i = vecByte c' i →
    (∀ k : Fin 16, selIndex c i = k.val → vecByte a k = vecByte a' k) →
    (∀ k : Fin 16, selIndex c i = 16 + k.val → vecByte b k = vecByte b' k) →
    vecByte (perm a b c) i = vecByte (perm a' b' c') i)

/-- R83. The bit of weight 16 of a selector byte chooses the source and its low four bits the byte;
the selectors 0x00, 0x0F, 0x10, 0x1F and 0x5F pick the bytes the source lists; byte 0 is the most
significant; the upper three bits have no effect. -/
def Obligations.SelectorByteMeaning : Prop :=
  (∀ a b c i (k : Fin 16), (vecByte c i &&& 0x0F#8).toNat = k.val →
    (vecByte c i &&& 0x10#8 = 0x00#8 → vecByte (perm a b c) i = vecByte a k) ∧
    (vecByte c i &&& 0x10#8 = 0x10#8 → vecByte (perm a b c) i = vecByte b k)) ∧
  (∀ a b c i,
    (vecByte c i = 0x00#8 → vecByte (perm a b c) i = vecByte a 0) ∧
    (vecByte c i = 0x0F#8 → vecByte (perm a b c) i = vecByte a 15) ∧
    (vecByte c i = 0x10#8 → vecByte (perm a b c) i = vecByte b 0) ∧
    (vecByte c i = 0x1F#8 → vecByte (perm a b c) i = vecByte b 15) ∧
    (vecByte c i = 0x5F#8 → vecByte (perm a b c) i = vecByte b 15)) ∧
  (∀ v, (vecByte v 0).toNat = v.toNat / 2 ^ 120) ∧
  (∀ a b c c', (∀ i, vecByte c i &&& 0x1F#8 = vecByte c' i &&& 0x1F#8) →
    perm a b c = perm a b c')

/-- R84, which the spec derives from R80. `PERM` reads the 32 bytes of the pair, and any choice of
16 of them, with repeats and omissions, is some mask's. -/
def Obligations.PermReadsThePair : Prop :=
  (∀ a b c i (k : Fin 32), selIndex c i = k.val → vecByte (perm a b c) i = pairByte a b k) ∧
  (∀ f : Fin 16 → Fin 32, ∃ c, ∀ a b i, vecByte (perm a b c) i = pairByte a b (f i))

/-- R89. The bytes are moved, never interpreted: whatever is done alike to every byte of both sources
before the permute is done to every byte of the result. -/
def Obligations.PermMovesBytesUninterpreted : Prop :=
  ∀ (f : Byte → Byte) a b c,
    perm (vecOfBytes fun i => f (vecByte a i)) (vecOfBytes fun i => f (vecByte b i)) c =
      vecOfBytes fun i => f (vecByte (perm a b c) i)

/-- R92 (a) to (e), which the spec derives from R80: identity on A, identity on B, insensitivity to
the upper bits, source swap, equal sources. -/
def Obligations.PermIdentityAndSwapLaws : Prop :=
  (∀ a b c, (∀ i, selIndex c i = i.val) → perm a b c = a) ∧
  (∀ a b c, (∀ i, selIndex c i = 16 + i.val) → perm a b c = b) ∧
  (∀ a b c c', (∀ i, selIndex c i = selIndex c' i) → perm a b c = perm a b c') ∧
  (∀ a b c, perm a b c = perm b a (vecOfBytes fun i => vecByte c i ^^^ 0x10#8)) ∧
  (∀ a c i (k : Fin 16), (vecByte c i &&& 0x0F#8).toNat = k.val →
    vecByte (perm a a c) i = vecByte a k)

/-- R92 (f) to (i), which the spec derives from R80: splat, shift across the pair, no new byte
value, composition. -/
def Obligations.PermSplatShiftAndCompositionLaws : Prop :=
  (∀ a b c (k : Fin 32), (∀ i, selIndex c i = k.val) →
    ∀ i, vecByte (perm a b c) i = pairByte a b k) ∧
  (∀ a b c sh, sh ≤ 16 → (∀ i, selIndex c i = sh + i.val) →
    ∀ i (k : Fin 32), k.val = sh + i.val → vecByte (perm a b c) i = pairByte a b k) ∧
  (∀ a b c i, ∃ k, vecByte (perm a b c) i = vecByte a k ∨ vecByte (perm a b c) i = vecByte b k) ∧
  (∀ a c1 c2 i (j k : Fin 16), (vecByte c2 i &&& 0x0F#8).toNat = j.val →
    (vecByte c1 j &&& 0x0F#8).toNat = k.val →
    vecByte (perm (perm a a c1) (perm a a c1) c2) i = vecByte a k)

/-- R9. A register read as one unsigned integer is the sum of its bytes, byte 0 the most significant,
and byte `i` is the integer shifted down by `8 * (15 - i)` and masked. -/
def Obligations.RegisterByteNumbering : Prop :=
  ∀ v : Vec128,
    v.toNat = ∑ i : Fin 16, (vecByte v i).toNat * 2 ^ (8 * (15 - i.val)) ∧
    ∀ i, (vecByte v i).toNat = (v.toNat >>> (8 * (15 - i.val))) &&& 0xFF

/-! ### Words and instructions (30_encoding.md) -/

/-- R64. A word is `vperm` exactly when its primary opcode is 4 and its extended opcode 43, which is
exactly when the mask and match say so; the other 20 bits take any value. -/
def Obligations.VpermWordsExactly : Prop :=
  ∀ w, ((∃ vd va vb vc, decodeWord w = .ok (.vperm vd va vb vc)) ↔
      field w 0 5 = 4 ∧ field w 26 31 = 43) ∧
    ((field w 0 5 = 4 ∧ field w 26 31 = 43) ↔ w &&& 0xFC00003F#32 = 0x1000002B#32)

/-- A word is `vperm128` exactly when its primary opcode is 5 and bits 22 and 27 are 0. That these
two bits are the extended opcode is the spec's derivation (30_encoding.md section 2, decision D8, log
entry 10). -/
def Obligations.Vperm128WordsExactly : Prop :=
  ∀ w, ((∃ vd va vb vc, decodeWord w = .ok (.vperm128 vd va vb vc)) ↔
      field w 0 5 = 5 ∧ field w 22 22 = 0 ∧ field w 27 27 = 0) ∧
    ((field w 0 5 = 5 ∧ field w 22 22 = 0 ∧ field w 27 27 = 0) ↔
      w &&& 0xFC000210#32 = 0x14000000#32)

/-- R61. The primary opcode is the six most significant bits: 4 for `vperm`, 5 for `vperm128`. -/
def Obligations.PrimaryOpcodeIsTopSixBits : Prop :=
  ∀ w vd va vb vc, field w 0 5 = w.toNat >>> 26 ∧
    (decodeWord w = .ok (.vperm vd va vb vc) → field w 0 5 = 4) ∧
    (decodeWord w = .ok (.vperm128 vd va vb vc) → field w 0 5 = 5)

/-- R68. In form VA each register number is one contiguous 5-bit field, an unsigned integer from 0 to
31, neither scaled nor shifted nor sign-extended. -/
def Obligations.VpermRegistersAreContiguousFields : Prop :=
  ∀ w vd va vb vc, decodeWord w = .ok (.vperm vd va vb vc) →
    (vd.val = field w 6 10 ∧ va.val = field w 11 15 ∧ vb.val = field w 16 20 ∧
      vc.val = field w 21 25) ∧
    vd.val ≤ 31 ∧ va.val ≤ 31 ∧ vb.val ≤ 31 ∧ vc.val ≤ 31

/-- R70. Source A of `vperm128` is `W{21} * 64 + W{26} * 32 + W{11:15}`, from 0 to 127, and the shift
form of the rule gives the same number. -/
def Obligations.Vperm128SourceANumber : Prop :=
  ∀ w vd va vb vc, decodeWord w = .ok (.vperm128 vd va vb vc) →
    va.val = field w 21 21 * 64 + field w 26 26 * 32 + field w 11 15 ∧ va.val ≤ 127 ∧
    va.val = ((w.toNat >>> 16) &&& 0x1F) ||| (((w.toNat >>> 5) &&& 1) <<< 5) |||
      (((w.toNat >>> 10) &&& 1) <<< 6)

/-- The destination, source B and source C of `vperm128`. The order of the bits in the 2-bit fields
and the naming of registers 0 to 7 by VC are decisions of the spec (30_encoding.md section 3,
decisions D9 and D10, log entries 11 and 12). -/
def Obligations.Vperm128OtherRegisterNumbers : Prop :=
  ∀ w vd va vb vc, decodeWord w = .ok (.vperm128 vd va vb vc) →
    (vd.val = field w 28 29 * 32 + field w 6 10 ∧ vd.val ≤ 127 ∧
      vd.val = ((w.toNat >>> 21) &&& 0x1F) ||| (((w.toNat >>> 2) &&& 0x3) <<< 5)) ∧
    (vb.val = field w 30 31 * 32 + field w 16 20 ∧ vb.val ≤ 127 ∧
      vb.val = ((w.toNat >>> 11) &&& 0x1F) ||| ((w.toNat &&& 0x3) <<< 5)) ∧
    (vc.val = field w 23 25 ∧ vc.val ≤ 7 ∧ vc.val = (w.toNat >>> 6) &&& 0x7)

/-- R60. Every instruction is 4 bytes: decoding takes exactly four, needs no more and no fewer, gives
the same instruction whatever bytes come after the fourth, and each instruction advances the program
counter by 4. -/
def Obligations.EveryInstructionIsFourBytes : Prop :=
  (∀ bs i tail, decodeBytes bs = .ok (i, tail) → tail = bs.drop 4 ∧ bs.length = 4 + tail.length) ∧
  (∀ bs, decodeBytes bs = .error .truncated ↔ bs.length < 4) ∧
  (∀ b0 b1 b2 b3 tail tail' i, decodeBytes (b0 :: b1 :: b2 :: b3 :: tail) = .ok (i, tail) →
    decodeBytes (b0 :: b1 :: b2 :: b3 :: tail') = .ok (i, tail')) ∧
  (∀ i s t, exec i s = .next t → t.pc = s.pc + 4)

/-- Decoding the encoding of any well-formed instruction gives it back, every operand at every value,
from a word and from the bytes in memory with anything after them; so no two instructions share a
word (30_encoding.md section 3, which the spec derives; the words of `vperm128` by decisions D8, D9
and D10, log entries 10, 11, 12). Four bytes decode as the word that has the
first as its most significant byte, and what follows them is left over: the byte order is the spec's
decision D6 (20_memory.md section 3, log entry 6). -/
def Obligations.DecodeOfEncodeIsTheInstruction : Prop :=
  (∀ i, i.wf = true → decodeWord (encode i) = .ok i) ∧
  (∀ i tail, i.wf = true → decodeBytes (encodeBytes i ++ tail) = .ok (i, tail)) ∧
  (∀ i j, i.wf = true → j.wf = true → encode i = encode j → i = j) ∧
  (∀ (b0 b1 b2 b3 : Byte) tail, decodeBytes (b0 :: b1 :: b2 :: b3 :: tail) =
    (decodeWord (BitVec.ofNat 32 (b0.toNat * 2 ^ 24 + b1.toNat * 2 ^ 16 + b2.toNat * 2 ^ 8 +
      b3.toNat))).map fun i => (i, tail))

/-- Whatever decodes is well formed and encodes back to the same word, so no bit of a decoded word is
dropped and no word has two readings (30_encoding.md sections 2 and 3, which the spec derives; the
words of `vperm128` by decisions D8, D9 and D10, log entries 10, 11, 12). -/
def Obligations.EncodeOfDecodeIsTheWord : Prop :=
  ∀ w i, decodeWord w = .ok i → i.wf = true ∧ encode i = w

/-- Two words that decode and print the same text are the same word (30_encoding.md section 6, which
the spec derives; the spelling `vN` is decision D22, log entry 13, and the words of `vperm128` rest on
decisions D8, D9 and D10, log entries 10, 11, 12). -/
def Obligations.AssemblyTextNamesOneWord : Prop :=
  ∀ w1 w2 i1 i2, decodeWord w1 = .ok i1 → decodeWord w2 = .ok i2 → i1.text = i2.text → w1 = w2

/-- Seven words of the spec's tables decode as the tables say (95_test_vectors.md K2, K9, K11, K23,
K27, X1, X6). The registers of the `vperm128` words rest on the spec's decisions D8, D9 and D10 (log
entries 10, 11, 12); the two refusals rest on decision D11 (log entry 17), that of 0x14000210 on D8
(log entry 10) as well. -/
def Obligations.TableWordsDecodeAsListed : Prop :=
  decodeWord 0x13FFFFEB#32 = .ok (.vperm 31 31 31 31) ∧
  decodeWord 0x12898FAB#32 = .ok (.vperm 20 9 17 30) ∧
  decodeWord 0x17FFFDEF#32 = .ok (.vperm128 127 127 127 7) ∧
  decodeWord 0x1480048F#32 = .ok (.vperm128 100 64 96 2) ∧
  decodeWord 0x143FF585#32 = .ok (.vperm128 33 95 62 6) ∧
  decodeWord 0x1000002A#32 = .error .wordNotSpecified ∧
  decodeWord 0x14000210#32 = .error .wordNotSpecified

/-! ### What the instructions do (40_vector_permute.md section 2, 10_state.md) -/

/-- `vperm` completes whenever the vector unit is available and `pc + 4` is a number of PC_BITS bits,
and leaves this state: `PERM` of the old sources in VD, `pc + 4`, everything else as it was. -/
def Obligations.VpermCompletes : Prop :=
  ∀ vd va vb vc s, s.vecEnabled = true → s.pc + 4 < 2 ^ s.pcBits →
    ∃ t, exec (.vperm vd va vb vc) s = .next t ∧
      t.readVr vd = perm (s.readVr va) (s.readVr vb) (s.readVr vc) ∧
      (∀ n, n ≠ vd → t.readVr n = s.readVr n) ∧
      t.pc = s.pc + 4 ∧ t.rest = s.rest ∧ s.SameLaunch t

/-- `vperm128` completes whenever the vector unit is available and `pc + 4` is a number of PC_BITS
bits, and leaves this state: `PERM` of the old sources in VD, `pc + 4`, everything else as it was. -/
def Obligations.Vperm128Completes : Prop :=
  ∀ vd va vb vc s, s.vecEnabled = true → s.pc + 4 < 2 ^ s.pcBits →
    ∃ t, exec (.vperm128 vd va vb vc) s = .next t ∧
      t.readVr vd = perm (s.readVr va) (s.readVr vb) (s.readVr vc) ∧
      (∀ n, n ≠ vd → t.readVr n = s.readVr n) ∧
      t.pc = s.pc + 4 ∧ t.rest = s.rest ∧ s.SameLaunch t

/-- R81, from the word: a step on any word of `vperm` writes `PERM` of the registers its fields name
to the register its VD field names, moves `pc` by 4, and leaves every other register, every flag, all
memory and the rest as they were. -/
def Obligations.StepOnVpermWord : Prop :=
  ∀ s w, s.endAddr ≠ some s.pc → s.pc % 4 = 0 →
    Memory.readBytes s.text s.pc 4 = some (bytesOfWord w) →
    w &&& 0xFC00003F#32 = 0x1000002B#32 →
    s.vecEnabled = true → s.pc + 4 < 2 ^ s.pcBits →
    ∃ t, step s = .next t ∧
      t.readVr (vreg (field w 6 10)) =
        perm (s.readVr (vreg (field w 11 15))) (s.readVr (vreg (field w 16 20)))
          (s.readVr (vreg (field w 21 25))) ∧
      (∀ n, n ≠ vreg (field w 6 10) → t.readVr n = s.readVr n) ∧
      t.pc = s.pc + 4 ∧ t.rest = s.rest ∧ s.SameLaunch t

/-- The same from the word of `vperm128`, whose register numbers rest on decisions D8, D9 and D10 of
the spec (40_vector_permute.md section 2, log entries 10, 11, 12). -/
def Obligations.StepOnVperm128Word : Prop :=
  ∀ s w, s.endAddr ≠ some s.pc → s.pc % 4 = 0 →
    Memory.readBytes s.text s.pc 4 = some (bytesOfWord w) →
    w &&& 0xFC000210#32 = 0x14000000#32 →
    s.vecEnabled = true → s.pc + 4 < 2 ^ s.pcBits →
    ∃ t, step s = .next t ∧
      t.readVr (vreg (field w 28 29 * 32 + field w 6 10)) =
        perm (s.readVr (vreg (field w 21 21 * 64 + field w 26 26 * 32 + field w 11 15)))
          (s.readVr (vreg (field w 30 31 * 32 + field w 16 20)))
          (s.readVr (vreg (field w 23 25))) ∧
      (∀ n, n ≠ vreg (field w 28 29 * 32 + field w 6 10) → t.readVr n = s.readVr n) ∧
      t.pc = s.pc + 4 ∧ t.rest = s.rest ∧ s.SameLaunch t

/-- R29, the frame of both instructions. Whenever one answers a next state, exactly VD, by `PERM` of
the old sources, and `pc`, by 4, may differ: every other vector register, every general and
floating-point register, CR, XER, VSCR, every other register, and every byte of data memory and of
the program text reads as before. -/
def Obligations.OnlyDestinationAndPcChange : Prop :=
  ∀ i s t, exec i s = .next t →
    t.readVr (destOf i) = resultOf i s ∧
    (∀ n, n ≠ destOf i → t.readVr n = s.readVr n) ∧
    t.pc = s.pc + 4 ∧
    t.rest.gpr = s.rest.gpr ∧ t.rest.fpr = s.rest.fpr ∧
    t.cr = s.cr ∧ t.xer = s.xer ∧ t.vscr = s.vscr ∧ t.rest.other = s.rest.other ∧
    (∀ a, Memory.read t.rest.mem a = Memory.read s.rest.mem a) ∧
    (∀ a, Memory.read t.text a = Memory.read s.text a) ∧
    t.rest = s.rest ∧ s.SameLaunch t

/-- R23. Each instruction reads three registers whole and writes one whole, all reads before the
write: two states that agree on the three sources, and in nothing else but the conditions to execute,
give the destination the same value, which is `PERM` of what the sources held before; and no byte of
the destination's old value is left in it, since it may be anything. -/
def Obligations.ThreeReadsThenOneWholeWrite : Prop :=
  (∀ vd va vb vc s s' t t', s'.readVr va = s.readVr va → s'.readVr vb = s.readVr vb →
    s'.readVr vc = s.readVr vc →
    (exec (.vperm vd va vb vc) s = .next t → exec (.vperm vd va vb vc) s' = .next t' →
      t.readVr vd = t'.readVr vd) ∧
    (exec (.vperm128 vd va vb vc) s = .next t → exec (.vperm128 vd va vb vc) s' = .next t' →
      t.readVr vd = t'.readVr vd)) ∧
  (∀ i s t, exec i s = .next t →
    t.readVr (destOf i) = resultOf i s ∧ ∀ n, n ≠ destOf i → t.readVr n = s.readVr n)

/-- R86. The four register numbers may coincide in every combination and the result is always `PERM`
of what the sources held before; with equal sources the weight-16 bit is irrelevant; with all four
equal the new bytes come from the old register. -/
def Obligations.AliasingIsLegal : Prop :=
  ∀ s, s.Enabled →
    (∀ i, ∃ t, exec i s = .next t ∧ t.readVr (destOf i) = resultOf i s) ∧
    (∀ vd va vc t, (exec (.vperm vd va va vc) s = .next t ∨
        exec (.vperm128 vd va va vc) s = .next t) →
      ∀ i (k : Fin 16), (vecByte (s.readVr vc) i &&& 0x0F#8).toNat = k.val →
        vecByte (t.readVr vd) i = vecByte (s.readVr va) k) ∧
    (∀ x t, (exec (.vperm x x x x) s = .next t ∨ exec (.vperm128 x x x x) s = .next t) →
      ∀ i (k : Fin 16), (vecByte (s.readVr x) i &&& 0x0F#8).toNat = k.val →
        vecByte (t.readVr x) i = vecByte (s.readVr x) k)

/-- R87. Neither instruction writes a flag, condition code or status bit, and neither reads one: with
any other CR, XER and VSCR, and any other general and special registers, it does the same. -/
def Obligations.NoFlagReadOrWritten : Prop :=
  ∀ i s,
    (∀ t, exec i s = .next t → t.cr = s.cr ∧ t.xer = s.xer ∧ t.vscr = s.vscr) ∧
    (∀ t r, exec i s = .next t → exec i (s.withRest r) = .next (t.withRest r)) ∧
    (∀ q r, exec i s = .refused q → exec i (s.withRest r) = .refused q)

/-- R88. Neither instruction raises an exception, whatever its operands and whatever the registers
hold: it never faults, and given the vector unit and room for `pc` it completes. -/
def Obligations.NoExceptionIsRaised : Prop :=
  ∀ i s, (∀ f, exec i s ≠ .fault f) ∧ (s.Enabled → ∃ t, exec i s = .next t)

/-- R40. Neither instruction accesses data memory: every byte of it reads as before, and with any
other data memory the instruction does the same to everything else. -/
def Obligations.NoDataMemoryAccess : Prop :=
  ∀ i s t, exec i s = .next t →
    (∀ a, Memory.read t.rest.mem a = Memory.read s.rest.mem a) ∧
    ∀ m, exec i (s.withMem m) = .next (t.withMem m)

/-- The two instructions share one register file: what one writes to a register the other reads
there. The words of `vperm` name exactly the registers 0 to 31 in all four places, those of
`vperm128` exactly 0 to 127 for VD, VA and VB and 0 to 7 for VC (10_state.md section 1). That VC
names registers 0 to 7 is the spec's decision D10 (30_encoding.md section 3, log entry 12). -/
def Obligations.OneSharedRegisterFile : Prop :=
  (∀ n vd va vb vc vb' vc' s t u, exec (.vperm128 n va vb vc) s = .next t →
    exec (.vperm vd n vb' vc') t = .next u →
    u.readVr vd = perm (perm (s.readVr va) (s.readVr vb) (s.readVr vc)) (t.readVr vb')
      (t.readVr vc')) ∧
  (∀ n vd va vb vc vb' vc' s t u, exec (.vperm n va vb vc) s = .next t →
    exec (.vperm128 vd n vb' vc') t = .next u →
    u.readVr vd = perm (perm (s.readVr va) (s.readVr vb) (s.readVr vc)) (t.readVr vb')
      (t.readVr vc')) ∧
  (∀ vd va vb vc, (∃ w, decodeWord w = .ok (.vperm vd va vb vc)) ↔
    vd.val ≤ 31 ∧ va.val ≤ 31 ∧ vb.val ≤ 31 ∧ vc.val ≤ 31) ∧
  (∀ vd va vb vc, (∃ w, decodeWord w = .ok (.vperm128 vd va vb vc)) ↔ vc.val ≤ 7)

/-- Every one of the 128 registers can be read and written: with an identity mask in register 0,
`vperm128` copies any register to any register, all 16 bytes of it (10_state.md section 1). That it
has a word that names them rests on decisions D8, D9 and D10 (log entries 10, 11, 12). -/
def Obligations.EveryRegisterCanBeReadAndWritten : Prop :=
  ∀ s n m, s.Enabled → (∀ i, selIndex (s.readVr 0) i = i.val) →
    ∃ w t, decodeWord w = .ok (.vperm128 n m m 0) ∧ exec (.vperm128 n m m 0) s = .next t ∧
      t.readVr n = s.readVr m

/-- The next instruction reads the new value, in any of its three source places, its mask among them
(70_reset_and_hazards.md section 3). -/
def Obligations.NextInstructionReadsTheNewValue : Prop :=
  ∀ i j s t u, exec i s = .next t → exec j t = .next u →
    t.readVr (destOf i) = resultOf i s ∧ u.readVr (destOf j) = resultOf j t ∧
    (destOf j ≠ destOf i → u.readVr (destOf i) = resultOf i s)

/-- Neither instruction reads `pc` as data: at any other address that leaves room for `pc + 4` it
does the same, and moves that `pc` by 4 (10_state.md section 2, 70_reset_and_hazards.md section 1;
the refusal at the top is decision D4, log entry 15). -/
def Obligations.PcIsNotReadAsData : Prop :=
  ∀ i s t p, exec i s = .next t → p + 4 < 2 ^ s.pcBits →
    exec i (s.withPc p) = .next (t.withPc (p + 4))

/-- The unaligned view: with the two aligned quadwords in VA and VB and a mask whose selectors count
up from `sh`, byte `i` of VD is byte `sh + i` of the pair (40_vector_permute.md section 4, which the
spec derives). -/
def Obligations.UnalignedViewIdiom : Prop :=
  ∀ vd va vb vc s sh, s.Enabled → sh ≤ 15 → (∀ i, selIndex (s.readVr vc) i = sh + i.val) →
    ∃ t, exec (.vperm vd va vb vc) s = .next t ∧
      ∀ i (k : Fin 32), k.val = sh + i.val →
        vecByte (t.readVr vd) i = pairByte (s.readVr va) (s.readVr vb) k

/-! ### The step (20_memory.md, 60_exceptions.md, 70_reset_and_hazards.md) -/

/-- When the bytes at the program counter decode to an instruction, it is well formed and the step is
its execution, nothing added (20_memory.md section 3; the alignment of `pc` is decision D5 and the
end of a run decision D23, log entries 16 and 7). -/
def Obligations.StepRunsTheDecodedInstruction : Prop :=
  ∀ s i bs tail, s.endAddr ≠ some s.pc → s.pc % 4 = 0 →
    Memory.readBytes s.text s.pc 4 = some bs → decodeBytes bs = .ok (i, tail) →
    step s = exec i s ∧ i.wf = true

/-- A step answers a next state exactly when the run is not over, `pc` is aligned, the word there is
an instruction, the vector unit is available and `pc + 4` is a number of PC_BITS bits; so every step
of an instruction is enabled (70_reset_and_hazards.md section 4, derived; decisions D4, D5, D12,
D23, log entries 7, 8, 15, 16). -/
def Obligations.StepCompletesExactlyWhen : Prop :=
  ∀ s, (∃ t, step s = .next t) ↔
    s.endAddr ≠ some s.pc ∧ s.pc % 4 = 0 ∧ (∃ i, s.InstrAt s.pc i) ∧ s.Enabled

/-- What stops the machine, and when: the end of a run, a misaligned `pc`, nothing at `pc`, a word
that does not decode, the vector unit, the top of the address space, each exactly under the condition
the spec's decisions D4, D5, D11, D12 and D23 give it (93_implementation_defined.md section 2; log
entries 7, 8, 15, 16, 17), in an order that is the model's choice (log entry 22). No step is refused
for want of a meaning. -/
def Obligations.StepStopsExactlyWhen : Prop :=
  ∀ s,
    (step s = .fault .endOfRun ↔ s.endAddr = some s.pc) ∧
    (step s = .refused .pcMisaligned ↔ s.endAddr ≠ some s.pc ∧ s.pc % 4 ≠ 0) ∧
    (step s = .refused .noInstructionAtPc ↔
      s.endAddr ≠ some s.pc ∧ s.pc % 4 = 0 ∧ Memory.readBytes s.text s.pc 4 = none) ∧
    (step s = .refused .wordNotSpecified ↔
      s.endAddr ≠ some s.pc ∧ s.pc % 4 = 0 ∧
        (∃ w, Memory.readBytes s.text s.pc 4 = some (bytesOfWord w) ∧
          w &&& 0xFC00003F#32 ≠ 0x1000002B#32 ∧ w &&& 0xFC000210#32 ≠ 0x14000000#32)) ∧
    (step s = .refused .vectorUnitUnavailable ↔
      s.endAddr ≠ some s.pc ∧ s.pc % 4 = 0 ∧ (∃ i, s.InstrAt s.pc i) ∧ s.vecEnabled = false) ∧
    (step s = .refused .pcOverflow ↔
      s.endAddr ≠ some s.pc ∧ s.pc % 4 = 0 ∧ (∃ i, s.InstrAt s.pc i) ∧ s.vecEnabled = true ∧
        2 ^ s.pcBits ≤ s.pc + 4) ∧
    ∀ m, step s ≠ .refused (.notModelled m)

/-- No step changes the program text, the end of the run, the premise, PC_BITS, or anything the
spec's `rest` stands for, and every step moves `pc` by 4 and changes no vector register but the
destination of the instruction at `pc` (10_state.md sections 2 and 3, 20_memory.md section 3;
decisions D7 and D24, log entries 3 and 5). -/
def Obligations.StepLeavesLaunchAndRest : Prop :=
  ∀ s t, step s = .next t →
    s.SameLaunch t ∧ t.rest = s.rest ∧ t.pc = s.pc + 4 ∧
      ∃ i, s.InstrAt s.pc i ∧ ∀ n, n ≠ destOf i → t.readVr n = s.readVr n

/-- Every step keeps the invariant: `pc` stays a multiple of 4 and a number of PC_BITS bits, the end
address stays one a launch may have, and both memories stay in canonical form (10_state.md section
2, derived from decisions D3, D4, D5; the canonical form is the model's own, log entries 4 and 5). -/
def Obligations.StepKeepsTheInvariant : Prop :=
  ∀ s t, s.Inv → step s = .next t → t.Inv

/-- The state after reset meets the invariant. Its `pc` and PC_BITS are the model's choice (log
entries 2 and 9). -/
def Obligations.ResetMeetsTheInvariant : Prop :=
  State.reset.Inv

/-- From reset, with nothing placed, the first step is refused, since nothing is at `pc`: a program is
loaded from outside (log entries 5 and 6, the model's choice). -/
def Obligations.ResetAwaitsALaunch : Prop :=
  step State.reset = .refused .noInstructionAtPc

/-- The launch of a program places its words, and nothing else, at `base` and the addresses after it,
starts at `base`, ends after the last word, and leaves all else alone; it meets the invariant, and
the premises of a launch where there is a word to run (70_reset_and_hazards.md sections 1 and 5,
decisions D16 and D23, log entry 7; byte order decision D6, log entry 6). -/
def Obligations.LaunchPlacesExactlyTheWords : Prop :=
  ∀ (s : State) base ws,
    (∀ k (h : k < ws.length), Memory.readBytes (s.launchProgram base ws).text (base + 4 * k) 4 =
      some (bytesOfWord ws[k])) ∧
    (∀ a, a < base ∨ base + 4 * ws.length ≤ a →
      Memory.read (s.launchProgram base ws).text a = none) ∧
    (s.launchProgram base ws).pc = base ∧
    (s.launchProgram base ws).endAddr = some (base + 4 * ws.length) ∧
    (s.launchProgram base ws).vr = s.vr ∧ (s.launchProgram base ws).rest = s.rest ∧
    (s.launchProgram base ws).vecEnabled = s.vecEnabled ∧
    (s.launchProgram base ws).pcBits = s.pcBits ∧
    (base % 4 = 0 → base < 2 ^ s.pcBits → Memory.wf s.rest.mem = true →
      (s.launchProgram base ws).Inv ∧
      (ws ≠ [] → s.vecEnabled = true → (s.launchProgram base ws).LaunchOk))

/-- A straight line of `n` instructions, with the vector unit available and room for `pc`, runs to
its end in exactly `n` steps, `pc` moving by 4 at each, and stops there if that is the end address
(70_reset_and_hazards.md sections 4 and 5, derived; decisions D23 and D25, log entries 7 and 18). -/
def Obligations.StraightLineRunsToItsEnd : Prop :=
  ∀ n (s : State), s.pc % 4 = 0 → s.vecEnabled = true → s.pc + 4 * n < 2 ^ s.pcBits →
    (∀ k, k < n → s.endAddr ≠ some (s.pc + 4 * k) ∧ ∃ i, s.InstrAt (s.pc + 4 * k) i) →
    ∃ t, runSteps n s = .next t ∧ t.pc = s.pc + 4 * n ∧ t.rest = s.rest ∧
      s.SameLaunch t ∧
      (s.endAddr = some (s.pc + 4 * n) → ∀ m, runSteps (n + 1 + m) s = .fault .endOfRun)

/-- Code is position-independent: the same words launched from the same state at two bases leave, at
every step that the first completes, the same registers, and program counters as far from their
bases (70_reset_and_hazards.md section 1, derived; decisions D4, D5 and D6, log entries 6, 15, 16). -/
def Obligations.CodeIsPositionIndependent : Prop :=
  ∀ (s : State) ws base base' k (t : State), base % 4 = 0 → base' % 4 = 0 →
    base' + 4 * ws.length < 2 ^ s.pcBits →
    runSteps k (s.launchProgram base ws) = .next t →
    ∃ t', runSteps k (s.launchProgram base' ws) = .next t' ∧
      t'.vr = t.vr ∧ t'.rest = t.rest ∧ t'.pc + base = t.pc + base'

/-- Two memories in canonical form that read alike everywhere are the same data (the model's own
form, log entries 4 and 5; 20_memory.md section 3). -/
def Obligations.CanonicalMemoriesThatReadAlikeAreEqual : Prop :=
  ∀ m m', Memory.wf m = true → Memory.wf m' = true →
    (∀ a, Memory.read m a = Memory.read m' a) → m = m'
end

