-- ==== Sys2Proof/Laws/Decode.lean ====
section
/-! SUPPORT. Fields, words and their bytes. -/

namespace Sys2Proof

/-- A field as a quotient and a remainder, the form `omega` reads. -/
theorem field_eq (w : Word) (i j : Nat) :
    field w i j = w.toNat / 2 ^ (31 - j) % 2 ^ (j - i + 1) := by
  rw [field, Nat.and_two_pow_sub_one_eq_mod, Nat.shiftRight_eq_div_pow]

theorem field_lt (w : Word) (i j : Nat) : field w i j < 2 ^ (j - i + 1) := by
  rw [field_eq]
  exact Nat.mod_lt _ (Nat.two_pow_pos _)

@[simp] theorem vreg_val {n : Nat} (h : n < 128) : (vreg n).val = n := Nat.mod_eq_of_lt h

@[simp] theorem vreg_val_self (r : VReg) : vreg r.val = r := Fin.ext (vreg_val r.isLt)

/-- The bytes of a word make the word again. -/
@[simp] theorem wordOfBytes_bytesOfWord (w : Word) :
    wordOfBytes (w.extractLsb' 24 8) (w.extractLsb' 16 8) (w.extractLsb' 8 8)
      (w.extractLsb' 0 8) = w := by
  refine BitVec.eq_of_getLsbD_eq fun k hk => ?_
  unfold wordOfBytes
  interval_cases k <;>
    (simp only [BitVec.getLsbD_append, BitVec.getLsbD_extractLsb']; norm_num)

/-- Any four bytes are the bytes of the word they make. -/
@[simp] theorem bytesOfWord_wordOfBytes (b0 b1 b2 b3 : Byte) :
    bytesOfWord (wordOfBytes b0 b1 b2 b3) = [b0, b1, b2, b3] := by
  simp only [bytesOfWord, List.cons.injEq, and_true]
  refine ⟨?_, ?_, ?_, ?_⟩ <;>
    (refine BitVec.eq_of_getLsbD_eq fun k hk => ?_
     unfold wordOfBytes
     interval_cases k <;>
       (simp only [BitVec.getLsbD_append, BitVec.getLsbD_extractLsb']; norm_num))

/-- Four bytes as one number, the first weighing most (20_memory.md R44). -/
theorem wordOfBytes_eq_ofNat (b0 b1 b2 b3 : Byte) :
    wordOfBytes b0 b1 b2 b3 = BitVec.ofNat 32 (b0.toNat * 2 ^ 24 + b1.toNat * 2 ^ 16 +
      b2.toNat * 2 ^ 8 + b3.toNat) := by
  apply BitVec.eq_of_toNat_eq
  have := b0.isLt; have := b1.isLt; have := b2.isLt; have := b3.isLt
  simp only [wordOfBytes, BitVec.toNat_append, BitVec.toNat_ofNat]
  rw [← Nat.shiftLeft_add_eq_or_of_lt (by omega), ← Nat.shiftLeft_add_eq_or_of_lt (by omega),
    ← Nat.shiftLeft_add_eq_or_of_lt (by omega)]
  simp only [Nat.shiftLeft_eq]
  omega

/-- Decoding the bytes of a word is decoding the word. -/
theorem decodeBytes_bytesOfWord (w : Word) (rest : List Byte) :
    decodeBytes (bytesOfWord w ++ rest) =
      match decodeWord w with
      | .ok i => .ok (i, rest)
      | .error e => .error e := by
  cases h : decodeWord w <;> simp [bytesOfWord, decodeBytes, h]

/-- What decoding bytes can answer: the first four are a word that decodes, and the rest follow. -/
theorem decodeBytes_eq_ok {bs : List Byte} {i : Instr} {rest : List Byte} :
    decodeBytes bs = .ok (i, rest) ↔
      ∃ b0 b1 b2 b3, bs = b0 :: b1 :: b2 :: b3 :: rest ∧
        decodeWord (wordOfBytes b0 b1 b2 b3) = .ok i := by
  constructor
  · intro h
    unfold decodeBytes at h
    split at h
    · rename_i b0 b1 b2 b3 tail
      split at h
      · rename_i j hj
        cases h
        exact ⟨b0, b1, b2, b3, rfl, hj⟩
      · cases h
    · cases h
  · rintro ⟨b0, b1, b2, b3, rfl, h⟩
    simp [decodeBytes, h]

/-- What decoding a word can answer. -/
theorem decodeWord_cases (w : Word) :
    (isVperm w = true ∧ decodeWord w = .ok (.vperm (vreg (field w 6 10)) (vreg (field w 11 15))
        (vreg (field w 16 20)) (vreg (field w 21 25)))) ∨
    (isVperm w = false ∧ isVperm128 w = true ∧
      decodeWord w = .ok (.vperm128 (vreg (vd128 w)) (vreg (va128 w)) (vreg (vb128 w))
        (vreg (vc128 w)))) ∨
    (isVperm w = false ∧ isVperm128 w = false ∧ decodeWord w = .error .wordNotSpecified) := by
  unfold decodeWord
  cases isVperm w <;> cases isVperm128 w <;> simp

/-- Putting a number into a field that is clear adds it there. -/
theorem or_shiftLeft_eq_add (x n s k : Nat) (hn : n < 2 ^ k) (hx : x / 2 ^ s % 2 ^ k = 0) :
    x ||| n <<< s = x + n * 2 ^ s := by
  have hr : x % 2 ^ s < 2 ^ s := Nat.mod_lt _ (Nat.two_pow_pos s)
  have hx' : 2 ^ (s + k) * (x / 2 ^ s / 2 ^ k) + x % 2 ^ s = x := by
    have h1 := Nat.div_add_mod x (2 ^ s)
    have h2 := Nat.div_add_mod (x / 2 ^ s) (2 ^ k)
    rw [hx, Nat.add_zero] at h2
    rw [Nat.pow_add, Nat.mul_assoc, h2]
    exact h1
  have hs : 2 ^ s * n + x % 2 ^ s < 2 ^ (s + k) := by
    have : 2 ^ s * (n + 1) ≤ 2 ^ s * 2 ^ k := Nat.mul_le_mul_left _ hn
    rw [Nat.mul_add, Nat.mul_one] at this
    rw [Nat.pow_add]
    omega
  have hlow : x % 2 ^ s ||| n <<< s = 2 ^ s * n + x % 2 ^ s := by
    rw [Nat.shiftLeft_eq, Nat.mul_comm n, Nat.or_comm, Nat.two_pow_add_eq_or_of_lt hr]
  calc x ||| n <<< s
      = (2 ^ (s + k) * (x / 2 ^ s / 2 ^ k) ||| x % 2 ^ s) ||| n <<< s := by
        rw [← Nat.two_pow_add_eq_or_of_lt (Nat.lt_of_lt_of_le hr
          (Nat.pow_le_pow_right (by omega) (Nat.le_add_right s k))), hx']
    _ = 2 ^ (s + k) * (x / 2 ^ s / 2 ^ k) + (2 ^ s * n + x % 2 ^ s) := by
        rw [Nat.or_assoc, hlow, Nat.two_pow_add_eq_or_of_lt hs]
    _ = x + n * 2 ^ s := by
        rw [Nat.mul_comm n]
        omega

/-- Reading a field out of a sum: `x` stands at bit `s`, `lo` below it and `hi` above it. -/
theorem div_mod_of_parts {n hi x lo s k : Nat} (h : n = hi * 2 ^ (s + k) + x * 2 ^ s + lo)
    (hx : x < 2 ^ k) (hlo : lo < 2 ^ s) : n / 2 ^ s % 2 ^ k = x := by
  have e : n = lo + 2 ^ s * (x + 2 ^ k * hi) := by rw [h, Nat.pow_add]; ring
  rw [e, Nat.add_mul_div_left _ _ (Nat.two_pow_pos s), Nat.div_eq_of_lt hlo, Nat.zero_add,
    Nat.add_mul_mod_self_left, Nat.mod_eq_of_lt hx]

/-- The word of `vperm` as a sum of its fields. -/
theorem encVperm_toNat {vd va vb vc : Nat} (hd : vd < 32) (ha : va < 32) (hb : vb < 32)
    (hc : vc < 32) :
    (encVperm vd va vb vc).toNat =
      0x1000002B + vd * 2 ^ 21 + va * 2 ^ 16 + vb * 2 ^ 11 + vc * 2 ^ 6 := by
  unfold encVperm
  rw [or_shiftLeft_eq_add _ vd 21 5 hd (by norm_num),
    or_shiftLeft_eq_add _ va 16 5 ha (by norm_num; omega),
    or_shiftLeft_eq_add _ vb 11 5 hb (by norm_num; omega),
    or_shiftLeft_eq_add _ vc 6 5 hc (by norm_num; omega), BitVec.toNat_ofNat, Nat.mod_eq_of_lt]
  omega

/-- The word of `vperm128` as a sum of its fields. -/
theorem encVperm128_toNat {vd va vb vc : Nat} (hd : vd < 128) (ha : va < 128) (hb : vb < 128)
    (hc : vc < 8) :
    (encVperm128 vd va vb vc).toNat =
      0x14000000 + vd % 32 * 2 ^ 21 + va % 32 * 2 ^ 16 + vb % 32 * 2 ^ 11 + va / 64 * 2 ^ 10 +
        vc * 2 ^ 6 + va / 32 % 2 * 2 ^ 5 + vd / 32 * 2 ^ 2 + vb / 32 := by
  have m31 (x : Nat) : x &&& 31 = x % 32 := Nat.and_two_pow_sub_one_eq_mod x 5
  have m3 (x : Nat) : x &&& 3 = x % 4 := Nat.and_two_pow_sub_one_eq_mod x 2
  have m1 (x : Nat) : x &&& 1 = x % 2 := Nat.and_two_pow_sub_one_eq_mod x 1
  have e1 : va / 64 % 2 = va / 64 := by omega
  have e2 : vd / 32 % 4 = vd / 32 := by omega
  have e3 : vb / 32 % 4 = vb / 32 := by omega
  have last (x : Nat) (hx : x / 2 ^ 0 % 2 ^ 2 = 0) : x ||| vb / 32 = x + vb / 32 := by
    simpa using or_shiftLeft_eq_add x (vb / 32) 0 2 (by omega) hx
  unfold encVperm128
  simp only [m31, m3, m1, Nat.shiftRight_eq_div_pow]
  norm_num only [e1, e2, e3]
  rw [or_shiftLeft_eq_add _ (vd % 32) 21 5 (by omega) (by norm_num),
    or_shiftLeft_eq_add _ (va % 32) 16 5 (by omega) (by norm_num; omega),
    or_shiftLeft_eq_add _ (vb % 32) 11 5 (by omega) (by norm_num; omega),
    or_shiftLeft_eq_add _ (va / 64) 10 1 (by omega) (by norm_num; omega),
    or_shiftLeft_eq_add _ vc 6 3 (by omega) (by norm_num; omega),
    or_shiftLeft_eq_add _ (va / 32 % 2) 5 1 (by omega) (by norm_num; omega),
    or_shiftLeft_eq_add _ (vd / 32) 2 2 (by omega) (by norm_num; omega),
    last _ (by norm_num; omega), BitVec.toNat_ofNat, Nat.mod_eq_of_lt]
  · norm_num
  · norm_num; omega

/-- The fields of a word that is the sum of the pieces of `vperm128`, its two opcode bits clear. -/
theorem fields_of_vperm128_sum {w : Word} {d1 d0 a2 a1 a0 b1 b0 c : Nat}
    (h : w.toNat = 0x14000000 + d0 * 2 ^ 21 + a0 * 2 ^ 16 + b0 * 2 ^ 11 + a2 * 2 ^ 10 + c * 2 ^ 6 +
      a1 * 2 ^ 5 + d1 * 2 ^ 2 + b1)
    (hd1 : d1 < 4) (hd0 : d0 < 32) (ha2 : a2 < 2) (ha1 : a1 < 2) (ha0 : a0 < 32) (hb1 : b1 < 4)
    (hb0 : b0 < 32) (hc : c < 8) :
    field w 0 5 = 5 ∧ field w 22 22 = 0 ∧ field w 27 27 = 0 ∧ field w 28 29 = d1 ∧
      field w 6 10 = d0 ∧ field w 21 21 = a2 ∧ field w 26 26 = a1 ∧ field w 11 15 = a0 ∧
      field w 30 31 = b1 ∧ field w 16 20 = b0 ∧ field w 23 25 = c := by
  simp only [field_eq]
  refine ⟨?_, ?_, ?_, ?_, ?_, ?_, ?_, ?_, ?_, ?_, ?_⟩
  · exact div_mod_of_parts (hi := 0)
      (lo := d0 * 2 ^ 21 + a0 * 2 ^ 16 + b0 * 2 ^ 11 + a2 * 2 ^ 10 + c * 2 ^ 6 + a1 * 2 ^ 5 +
        d1 * 2 ^ 2 + b1) (by rw [h]; norm_num; omega) (show 5 < 2 ^ 6 by norm_num) (by omega)
  · exact div_mod_of_parts (hi := (((5 * 32 + d0) * 32 + a0) * 32 + b0) * 2 + a2)
      (lo := c * 2 ^ 6 + a1 * 2 ^ 5 + d1 * 2 ^ 2 + b1) (by omega) (by norm_num) (by omega)
  · exact div_mod_of_parts
      (hi := (((((5 * 32 + d0) * 32 + a0) * 32 + b0) * 2 + a2) * 16 + c) * 2 + a1)
      (lo := d1 * 2 ^ 2 + b1) (by omega) (by norm_num) (by omega)
  · exact div_mod_of_parts
      (hi := ((((((5 * 32 + d0) * 32 + a0) * 32 + b0) * 2 + a2) * 16 + c) * 2 + a1) * 2)
      (lo := b1) (by omega) (by omega) (by omega)
  · exact div_mod_of_parts (hi := 5)
      (lo := a0 * 2 ^ 16 + b0 * 2 ^ 11 + a2 * 2 ^ 10 + c * 2 ^ 6 + a1 * 2 ^ 5 + d1 * 2 ^ 2 + b1)
      (by omega) (by omega) (by omega)
  · exact div_mod_of_parts (hi := ((5 * 32 + d0) * 32 + a0) * 32 + b0)
      (lo := c * 2 ^ 6 + a1 * 2 ^ 5 + d1 * 2 ^ 2 + b1) (by omega) (by omega) (by omega)
  · exact div_mod_of_parts (hi := ((((5 * 32 + d0) * 32 + a0) * 32 + b0) * 2 + a2) * 16 + c)
      (lo := d1 * 2 ^ 2 + b1) (by omega) (by omega) (by omega)
  · exact div_mod_of_parts (hi := 5 * 32 + d0)
      (lo := b0 * 2 ^ 11 + a2 * 2 ^ 10 + c * 2 ^ 6 + a1 * 2 ^ 5 + d1 * 2 ^ 2 + b1)
      (by omega) (by omega) (by omega)
  · exact div_mod_of_parts
      (hi := (((((((5 * 32 + d0) * 32 + a0) * 32 + b0) * 2 + a2) * 16 + c) * 2 + a1) * 2) * 4 + d1)
      (lo := 0) (by omega) (by omega) (by omega)
  · exact div_mod_of_parts (hi := (5 * 32 + d0) * 32 + a0)
      (lo := a2 * 2 ^ 10 + c * 2 ^ 6 + a1 * 2 ^ 5 + d1 * 2 ^ 2 + b1)
      (by omega) (by omega) (by omega)
  · exact div_mod_of_parts (hi := ((((5 * 32 + d0) * 32 + a0) * 32 + b0) * 2 + a2) * 2)
      (lo := a1 * 2 ^ 5 + d1 * 2 ^ 2 + b1) (by omega) (by omega) (by omega)

end Sys2Proof
end

