-- ==== Sys2Proof/Laws/Memory.lean ====
section
/-! SUPPORT. The laws of memory: a read after a write, the canonical form, and words of program
text. -/

namespace Sys2Proof.Machine

theorem Memory.read_write (m : Memory) (a a' : Nat) (b : Byte) :
    Memory.read (Memory.write m a b) a' = if a' = a then some b else Memory.read m a' := by
  induction m with
  | nil => simp [Memory.write, Memory.read]
  | cons c m ih =>
    obtain ⟨x, y⟩ := c
    unfold Memory.write
    split
    · simp [Memory.read]
    · split
      · subst x
        by_cases h : a' = a <;> simp [Memory.read, h]
      · by_cases h : a' = x
        · have : a' ≠ a := by omega
          simp [Memory.read, h]
          omega
        · simp [Memory.read, h, ih]

/-- The first address a canonical memory lists is below every other. -/
theorem Memory.wf_cons {a : Nat} {b : Byte} {m : Memory} :
    Memory.wf ((a, b) :: m) = true ↔ (∀ c ∈ m, a < c.1) ∧ Memory.wf m = true := by
  induction m generalizing a b with
  | nil => simp [Memory.wf]
  | cons c m ih =>
    obtain ⟨x, y⟩ := c
    constructor
    · intro h
      have h' : a < x ∧ Memory.wf ((x, y) :: m) = true := by
        rw [Memory.wf] at h; simpa using h
      refine ⟨?_, h'.2⟩
      intro d hd
      rcases List.mem_cons.1 hd with rfl | hd
      · exact h'.1
      · exact Nat.lt_trans h'.1 ((ih.1 h'.2).1 d hd)
    · rintro ⟨h1, h2⟩
      rw [Memory.wf]
      simp only [Bool.and_eq_true, decide_eq_true_eq]
      exact ⟨h1 (x, y) (by simp), h2⟩

theorem Memory.mem_write {m : Memory} {a : Nat} {b : Byte} {c : Host.Cell} :
    c ∈ Memory.write m a b → c = (a, b) ∨ c ∈ m := by
  induction m with
  | nil => simp [Memory.write]
  | cons d m ih =>
    obtain ⟨x, y⟩ := d
    unfold Memory.write
    split
    · intro h; simpa using h
    · split
      · intro h
        rcases List.mem_cons.1 h with h | h
        · exact .inl h
        · exact .inr (List.mem_cons_of_mem _ h)
      · intro h
        rcases List.mem_cons.1 h with h | h
        · exact .inr (by simp [h])
        · rcases ih h with h | h
          · exact .inl h
          · exact .inr (List.mem_cons_of_mem _ h)

/-- A write keeps the canonical form. -/
theorem Memory.write_wf {m : Memory} (a : Nat) (b : Byte) (h : Memory.wf m = true) :
    Memory.wf (Memory.write m a b) = true := by
  induction m with
  | nil => rfl
  | cons c m ih =>
    obtain ⟨x, y⟩ := c
    have hx := Memory.wf_cons.1 h
    unfold Memory.write
    split
    · rename_i hlt
      refine Memory.wf_cons.2 ⟨?_, h⟩
      intro d hd
      rcases List.mem_cons.1 hd with rfl | hd
      · exact hlt
      · exact Nat.lt_trans hlt (hx.1 d hd)
    · split
      · rename_i _ heq
        subst heq
        exact Memory.wf_cons.2 hx
      · refine Memory.wf_cons.2 ⟨?_, ih hx.2⟩
        intro d hd
        rcases Memory.mem_write hd with rfl | hd
        · show x < a
          omega
        · exact hx.1 d hd

theorem Memory.writeBytes_wf {m : Memory} (a : Nat) (bs : List Byte) (h : Memory.wf m = true) :
    Memory.wf (Memory.writeBytes m a bs) = true := by
  induction bs generalizing m a with
  | nil => exact h
  | cons b bs ih => exact ih (a + 1) (Memory.write_wf a b h)

theorem Memory.writeWord_wf {m : Memory} (a : Nat) (w : Word) (h : Memory.wf m = true) :
    Memory.wf (Memory.writeWord m a w) = true :=
  Memory.writeBytes_wf a _ h

/-- Bytes written from `a` on are read back, and every other address reads as before. -/
theorem Memory.read_writeBytes (m : Memory) (a a' : Nat) (bs : List Byte) :
    Memory.read (Memory.writeBytes m a bs) a' =
      if a ≤ a' ∧ a' < a + bs.length then bs[a' - a]? else Memory.read m a' := by
  induction bs generalizing m a with
  | nil => simp [Memory.writeBytes]
  | cons b bs ih =>
    rw [Memory.writeBytes, ih, Memory.read_write]
    simp only [List.length_cons]
    by_cases h1 : a' = a
    · subst h1; simp
    · by_cases h2 : a + 1 ≤ a' ∧ a' < a + 1 + bs.length
      · have h3 : a ≤ a' ∧ a' < a + (bs.length + 1) := by omega
        obtain ⟨k, hk⟩ : ∃ k, a' - a = k + 1 := ⟨a' - a - 1, by omega⟩
        have hk' : a' - (a + 1) = k := by omega
        simp [h2, h3, hk, hk']
      · have h3 : ¬(a ≤ a' ∧ a' < a + (bs.length + 1)) := by omega
        simp only [h2, h3, h1, if_false]

/-- The bytes from `a` on are `bs` exactly when every address holds its own. -/
theorem Memory.readBytes_eq_some {m : Memory} {a n : Nat} {bs : List Byte} :
    Memory.readBytes m a n = some bs ↔
      bs.length = n ∧ ∀ k, k < n → Memory.read m (a + k) = bs[k]? := by
  induction n generalizing a bs with
  | zero => cases bs <;> simp [Memory.readBytes]
  | succ n ih =>
    rw [Memory.readBytes]
    constructor
    · intro h
      split at h
      · rename_i b bs' h1 h2
        cases h
        obtain ⟨hl, hk⟩ := ih.1 h2
        refine ⟨by simp [hl], ?_⟩
        intro k hk'
        cases k with
        | zero => simpa using h1
        | succ k =>
          have := hk k (by omega)
          rw [Nat.add_assoc, Nat.add_comm 1 k] at this
          simpa using this
      · cases h
    · rintro ⟨hl, hk⟩
      cases bs with
      | nil => simp at hl
      | cons b bs =>
        have h0 : Memory.read m a = some b := by simpa using hk 0 (by omega)
        have h1 : Memory.readBytes m (a + 1) n = some bs := by
          refine ih.2 ⟨by simpa using hl, ?_⟩
          intro k hk'
          have := hk (k + 1) (by omega)
          rw [Nat.add_assoc, Nat.add_comm 1 k]
          simpa using this
        rw [h0, h1]

/-- A word placed in the text is fetched whole. -/
theorem Memory.readBytes_writeWord (m : Memory) (a : Nat) (w : Word) :
    Memory.readBytes (Memory.writeWord m a w) a 4 = some (bytesOfWord w) := by
  refine Memory.readBytes_eq_some.2 ⟨rfl, ?_⟩
  intro k hk
  rw [Memory.writeWord, Memory.read_writeBytes]
  have hl : (bytesOfWord w).length = 4 := rfl
  rw [hl, if_pos ⟨by omega, by omega⟩, Nat.add_sub_cancel_left]

/-- A program's text is in canonical form. -/
theorem programText_wf (base : Nat) (ws : List Word) : Memory.wf (programText base ws) = true := by
  induction ws generalizing base with
  | nil => rfl
  | cons w ws ih => exact Memory.writeWord_wf base w (ih (base + 4))

theorem reset_text_wf : Memory.wf State.reset.text = true := rfl
theorem reset_mem_wf : Memory.wf State.reset.rest.mem = true := rfl

/-- Placing the next instruction keeps the text canonical. -/
theorem withFetchWord_text_wf (s : State) (nbits w : Nat) (h : Memory.wf s.text = true) :
    Memory.wf (s.withFetchWord nbits w).text = true :=
  Memory.writeWord_wf _ _ h

end Sys2Proof.Machine
end

