-- ==== Sys2Proof/Laws/Operands.lean ====
section
/-! SUPPORT. The 16-byte view of a vector register: reading a built register gives the bytes it was
built from, and a register is determined by its bytes. -/

namespace Sys2Proof.Machine

theorem getLsbD_vecByte (v : Vec128) (i : Fin 16) (k : Nat) :
    (vecByte v i).getLsbD k = (decide (k < 8) && v.getLsbD (8 * (15 - i.val) + k)) := by
  simp [vecByte, BitVec.getLsbD_setWidth, BitVec.getLsbD_ushiftRight]

/-- The last byte of a sequence of bytes holds its lowest eight bits. -/
theorem getLsbD_append_low {n : Nat} (x : BitVec n) (y : Byte) (k : Nat) (hk : k < 8) :
    (x ++ y).getLsbD k = y.getLsbD k := by
  simp [BitVec.getLsbD_append, hk]

/-- The bits above them are those of the bytes before it. -/
theorem getLsbD_append_high {n : Nat} (x : BitVec n) (y : Byte) (d k : Nat) (h : 8 ≤ d) :
    (x ++ y).getLsbD (d + k) = x.getLsbD (d - 8 + k) := by
  rw [BitVec.getLsbD_append, if_neg (by omega)]
  congr 1
  omega

/-- Bit `8 * (15 - i) + k` of a built register is bit `k` of its byte `i`. -/
theorem getLsbD_vecOfBytes (f : Fin 16 → Byte) (i : Fin 16) (k : Nat) (hk : k < 8) :
    (vecOfBytes f).getLsbD (8 * (15 - i.val) + k) = (f i).getLsbD k := by
  unfold vecOfBytes
  obtain ⟨i, hi⟩ := i
  interval_cases i <;>
    (simp (disch := omega) only [getLsbD_append_high, getLsbD_append_low, Nat.reduceSub,
      Nat.reduceMul, Nat.zero_add]; try rfl)

@[simp] theorem vecByte_vecOfBytes (f : Fin 16 → Byte) (i : Fin 16) : vecByte (vecOfBytes f) i = f i := by
  refine BitVec.eq_of_getLsbD_eq fun k hk => ?_
  rw [getLsbD_vecByte, getLsbD_vecOfBytes f i k hk]
  simp [hk]

/-- A register is its 16 bytes. -/
theorem vec_ext {a b : Vec128} (h : ∀ i, vecByte a i = vecByte b i) : a = b := by
  refine BitVec.eq_of_getLsbD_eq fun k hk => ?_
  have hb := congrArg (fun v : Byte => v.getLsbD (k % 8)) (h ⟨15 - k / 8, by omega⟩)
  simp only [getLsbD_vecByte] at hb
  have e : 8 * (15 - (15 - k / 8)) + k % 8 = k := by omega
  simpa [e, Nat.mod_lt] using hb

end Sys2Proof.Machine
end

