-- ==== Sys2Proof/Laws/State.lean ====
section
/-! SUPPORT. What each update of the state leaves in each field. -/

namespace Sys2Proof.Machine

@[simp] theorem readVr_writeVr (s : State) (n m : VReg) (v : Vec128) :
    (s.writeVr n v).readVr m = if m = n then v else s.readVr m := by
  simp only [State.readVr, State.writeVr, Vector.getElem_set, Fin.ext_iff, eq_comm]

@[simp] theorem writeVr_pc (s : State) (n : VReg) (v : Vec128) : (s.writeVr n v).pc = s.pc := rfl
@[simp] theorem writeVr_rest (s : State) (n : VReg) (v : Vec128) : (s.writeVr n v).rest = s.rest := rfl
@[simp] theorem writeVr_text (s : State) (n : VReg) (v : Vec128) : (s.writeVr n v).text = s.text := rfl
@[simp] theorem writeVr_endAddr (s : State) (n : VReg) (v : Vec128) :
    (s.writeVr n v).endAddr = s.endAddr := rfl
@[simp] theorem writeVr_vecEnabled (s : State) (n : VReg) (v : Vec128) :
    (s.writeVr n v).vecEnabled = s.vecEnabled := rfl
@[simp] theorem writeVr_pcBits (s : State) (n : VReg) (v : Vec128) :
    (s.writeVr n v).pcBits = s.pcBits := rfl

@[simp] theorem withPc_vr (s : State) (p : Nat) : (s.withPc p).vr = s.vr := rfl
@[simp] theorem withPc_readVr (s : State) (p : Nat) (n : VReg) : (s.withPc p).readVr n = s.readVr n := rfl
@[simp] theorem withPc_pc (s : State) (p : Nat) : (s.withPc p).pc = p := rfl
@[simp] theorem withPc_rest (s : State) (p : Nat) : (s.withPc p).rest = s.rest := rfl
@[simp] theorem withPc_text (s : State) (p : Nat) : (s.withPc p).text = s.text := rfl
@[simp] theorem withPc_endAddr (s : State) (p : Nat) : (s.withPc p).endAddr = s.endAddr := rfl
@[simp] theorem withPc_vecEnabled (s : State) (p : Nat) : (s.withPc p).vecEnabled = s.vecEnabled := rfl
@[simp] theorem withPc_pcBits (s : State) (p : Nat) : (s.withPc p).pcBits = s.pcBits := rfl

@[simp] theorem withRest_vr (s : State) (r : Rest) : (s.withRest r).vr = s.vr := rfl
@[simp] theorem withRest_readVr (s : State) (r : Rest) (n : VReg) :
    (s.withRest r).readVr n = s.readVr n := rfl
@[simp] theorem withRest_pc (s : State) (r : Rest) : (s.withRest r).pc = s.pc := rfl
@[simp] theorem withRest_rest (s : State) (r : Rest) : (s.withRest r).rest = r := rfl
@[simp] theorem withRest_text (s : State) (r : Rest) : (s.withRest r).text = s.text := rfl
@[simp] theorem withRest_endAddr (s : State) (r : Rest) : (s.withRest r).endAddr = s.endAddr := rfl
@[simp] theorem withRest_vecEnabled (s : State) (r : Rest) :
    (s.withRest r).vecEnabled = s.vecEnabled := rfl
@[simp] theorem withRest_pcBits (s : State) (r : Rest) : (s.withRest r).pcBits = s.pcBits := rfl

/-- The updates of different components commute. -/
theorem withRest_writeVr (s : State) (r : Rest) (n : VReg) (v : Vec128) :
    (s.withRest r).writeVr n v = (s.writeVr n v).withRest r := rfl
theorem withRest_withPc (s : State) (r : Rest) (p : Nat) :
    (s.withRest r).withPc p = (s.withPc p).withRest r := rfl
theorem withPc_writeVr (s : State) (p : Nat) (n : VReg) (v : Vec128) :
    (s.withPc p).writeVr n v = (s.writeVr n v).withPc p := rfl
theorem withPc_withPc (s : State) (p q : Nat) : (s.withPc p).withPc q = s.withPc q := rfl

end Sys2Proof.Machine
end

