-- ==== Sys2Proof/Laws/Ops.lean ====
section
/-! SUPPORT. For each shared operation, once, everything it can do. -/

namespace Sys2Proof.Machine

/-- The advance answers a next state exactly below the top of the address space. -/
theorem advancePc_eq_next {s t : State} :
    advancePc s = .next t ↔ s.pc + 4 < 2 ^ s.pcBits ∧ t = s.withPc (s.pc + 4) := by
  unfold advancePc
  split
  · simp; omega
  · simp only [Host.Outcome.next.injEq, eq_comm, iff_and_self]; omega

/-- The permute step answers a next state exactly when the state is enabled, and then this one. -/
theorem permuteStep_eq_next {vd va vb vc : VReg} {s t : State} :
    permuteStep vd va vb vc s = .next t ↔
      s.Enabled ∧
        t = (s.writeVr vd (perm (s.readVr va) (s.readVr vb) (s.readVr vc))).withPc (s.pc + 4) := by
  unfold permuteStep
  split
  · rename_i h
    rw [advancePc_eq_next]
    simp [h, and_assoc]
  · rename_i h
    simp [h]

/-- Where the permute step stops: the vector unit first, then the program counter. -/
theorem permuteStep_eq_refused {vd va vb vc : VReg} {s : State} {r : Refusal} :
    permuteStep vd va vb vc s = .refused r ↔
      (s.vecEnabled = false ∧ r = .vectorUnitUnavailable) ∨
        (s.vecEnabled = true ∧ 2 ^ s.pcBits ≤ s.pc + 4 ∧ r = .pcOverflow) := by
  unfold permuteStep advancePc
  cases h : s.vecEnabled
  · simp [eq_comm]
  · simp only [if_true, writeVr_pc, writeVr_pcBits, reduceCtorEq, false_and, true_and, false_or]
    by_cases h2 : 2 ^ s.pcBits ≤ s.pc + 4 <;> simp [h2, eq_comm]

/-- The permute step never faults. -/
theorem permuteStep_ne_fault {vd va vb vc : VReg} {s : State} {f : Fault} :
    permuteStep vd va vb vc s ≠ .fault f := by
  unfold permuteStep advancePc
  split
  · simp only; split <;> simp
  · simp

/-- Every instruction is the permute step on its own registers. -/
theorem exec_cases (i : Instr) : ∃ vd va vb vc, destOf i = vd ∧
    (∀ s, exec i s = permuteStep vd va vb vc s) ∧
    (∀ s : State, resultOf i s = perm (s.readVr va) (s.readVr vb) (s.readVr vc)) := by
  cases i with
  | vperm vd va vb vc => exact ⟨vd, va, vb, vc, rfl, fun _ => rfl, fun _ => rfl⟩
  | vperm128 vd va vb vc => exact ⟨vd, va, vb, vc, rfl, fun _ => rfl, fun _ => rfl⟩

/-- The fetch gives an instruction exactly when the run is not over, `pc` is aligned, and the four
bytes there decode. -/
theorem fetch_eq_next {s : State} {i : Instr} :
    fetch s = .next i ↔ s.endAddr ≠ some s.pc ∧ s.pc % 4 = 0 ∧ s.InstrAt s.pc i := by
  unfold fetch State.InstrAt
  split
  · rename_i h; simp [h]
  · rename_i h
    split
    · rename_i h2; simp [h2]
    · rename_i h2
      have h2' : s.pc % 4 = 0 := by omega
      simp only [h, h2', ne_eq, not_false_eq_true, true_and]
      cases hb : Memory.readBytes s.text s.pc 4 with
      | none => simp
      | some bs =>
        cases hd : decodeBytes bs with
        | ok p => obtain ⟨j, tail⟩ := p; simp [hd]
        | error e => simp [hd]

/-- A step answers a next state exactly when the fetch gives an instruction and the instruction
answers it. -/
theorem step_eq_next {s t : State} :
    step s = .next t ↔ ∃ i, fetch s = .next i ∧ exec i s = .next t := by
  unfold step
  cases h : fetch s <;> simp

end Sys2Proof.Machine
end

