-- ==== Sys2Proof/Laws/PerInstr.lean ====
section
/-! SUPPORT. Statements made for all instructions, one lemma a constructor. -/

namespace Sys2Proof

/-- The primary opcode of an instruction (30_encoding.md R61). -/
def primaryOpcode : Instr → Nat
  | .vperm _ _ _ _ => 4
  | .vperm128 _ _ _ _ => 5

end Sys2Proof

namespace Sys2Proof.Laws.EncodingShape

/-- The word of a well-formed instruction carries the instruction's primary opcode. -/
def Statement (i : Instr) : Prop :=
  i.wf = true → field (encode i) 0 5 = primaryOpcode i

theorem vperm (vd va vb vc : VReg) : Statement (.vperm vd va vb vc) := by
  intro h
  simp only [Instr.wf, Bool.and_eq_true, decide_eq_true_eq] at h
  rw [field_eq, encode, encVperm_toNat h.1.1.1 h.1.1.2 h.1.2 h.2, primaryOpcode]
  norm_num
  omega

theorem vperm128 (vd va vb vc : VReg) : Statement (.vperm128 vd va vb vc) := by
  intro h
  simp only [Instr.wf, decide_eq_true_eq] at h
  rw [field_eq, encode, encVperm128_toNat vd.isLt va.isLt vb.isLt h, primaryOpcode]
  have h1 : vd.val / 32 ≤ 3 := by omega
  have h2 : va.val / 64 ≤ 1 := by omega
  have h3 : vb.val / 32 ≤ 3 := by omega
  have h4 := Nat.mod_lt vd.val (show 32 > 0 by norm_num)
  have h5 := Nat.mod_lt va.val (show 32 > 0 by norm_num)
  have h6 := Nat.mod_lt vb.val (show 32 > 0 by norm_num)
  have h7 := Nat.mod_lt (va.val / 32) (show 2 > 0 by norm_num)
  generalize vd.val / 32 = d1, vd.val % 32 = d0, va.val / 64 = a2, va.val / 32 % 2 = a1,
    va.val % 32 = a0, vb.val / 32 = b1, vb.val % 32 = b0 at *
  norm_num
  omega

end Sys2Proof.Laws.EncodingShape
end

