-- ==== Sys2Proof/Tests/Slice0.lean ====
section
/-! SUPPORT. Tests and witnesses. Expected results are those of spec/95_test_vectors.md (K words, X
words, T vectors, W steps, S facts) or are worked out from the encoding tables of 30_encoding.md;
each test names its source. A witness shows a state and operands that meet a statement's hypotheses
together. -/

namespace Sys2Proof.Tests

open Sys2Proof.Machine

/-! ### Data of 95_test_vectors.md -/

def dataA : Vec128 := 0xA0A1A2A3A4A5A6A7A8A9AAABACADAEAF#128
def dataB : Vec128 := 0xB0B1B2B3B4B5B6B7B8B9BABBBCBDBEBF#128
def dataC : Vec128 := 0xC0C1C2C3C4C5C6C7C8C9CACBCCCDCECF#128
def dataX : Vec128 := 0x0123456789ABCDEF1032547698BADCFE#128
def maskT1 : Vec128 := 0x000102030405060708090A0B0C0D0E0F#128
def maskT2 : Vec128 := 0x101112131415161718191A1B1C1D1E1F#128
def maskT5 : Vec128 := 0xE0E1E2E3E4E5E6E7E8E9EAEBECEDEEEF#128
def maskT6 : Vec128 := 0x5F5F5F5F5F5F5F5F5F5F5F5F5F5F5F5F#128
def maskT10 : Vec128 := 0x030405060708090A0B0C0D0E0F101112#128
def maskT12 : Vec128 := 0x00100111021203130414051506160717#128
def maskT19 : Vec128 := 0x000F101F000F101F000F101F000F101F#128

/-- One word launched at `pc`, the registers holding the data of W1, W2 and P4. -/
def start (pc : Nat) (w : Word) : State :=
  ((((((State.reset.launchProgram pc [w]).writeVr 0 maskT10).writeVr 1 dataA).writeVr 2 dataB).writeVr
    3 dataC).writeVr 64 dataA).writeVr 96 dataB

/-- The state a step answers, if it answers one. -/
def nextOf : Host.Outcome State Fault Refusal → Option State
  | .next t => some t
  | _ => none

/-- Why a step is refused, if it is. -/
def refusalOf : Host.Outcome State Fault Refusal → Option Refusal
  | .refused r => some r
  | _ => none

/-! ### Well-formedness: an ill-formed term for each check, beside the last well-formed one -/

theorem test_wf_refuses_vperm_vd : Instr.wf (.vperm 32 0 0 0) = false := by decide
theorem test_wf_refuses_vperm_va : Instr.wf (.vperm 0 32 0 0) = false := by decide
theorem test_wf_refuses_vperm_vb : Instr.wf (.vperm 0 0 32 0) = false := by decide
theorem test_wf_refuses_vperm_vc : Instr.wf (.vperm 0 0 0 32) = false := by decide
theorem test_wf_refuses_vperm128_vc : Instr.wf (.vperm128 0 0 0 8) = false := by decide
theorem test_wf_accepts_last :
    Instr.wf (.vperm 31 31 31 31) = true ∧ Instr.wf (.vperm128 127 127 127 7) = true := by decide

/-! ### Decoding: words written out field by field from the tables of R62 and R63 -/

/-- R62: 000100, VRT 3, VRA 1, VRB 2, VRC 0, 101011 (K8). -/
theorem test_decode_vperm_bits :
    decodeWord (4#6 ++ 3#5 ++ 1#5 ++ 2#5 ++ 0#5 ++ 43#6) = .ok (.vperm 3 1 2 0) := by decide

/-- R62 with every bit of the word written out (K7). -/
theorem test_decode_vperm_operand_order :
    decodeWord 0b00010000001000100001100100101011#32 = .ok (.vperm 1 2 3 4) := by decide

/-- R63: 000101, VD128l 21, VA128l 10, VB128l 17, VA128H 0, bit 22, VC 5, VA128h 1, bit 27, VD128h 2,
VB128h 3 (K25). -/
theorem test_decode_vperm128_bits :
    decodeWord (5#6 ++ 21#5 ++ 10#5 ++ 17#5 ++ 0#1 ++ 0#1 ++ 5#3 ++ 1#1 ++ 0#1 ++ 2#2 ++ 3#2) =
      .ok (.vperm128 85 42 113 5) := by decide

/-- Each piece of the split numbers alone: K14, K15, K16, K17, K18, K19, K12. -/
theorem test_decode_vperm128_pieces :
    decodeWord 0x14000004#32 = .ok (.vperm128 32 0 0 0) ∧
    decodeWord 0x14000008#32 = .ok (.vperm128 64 0 0 0) ∧
    decodeWord 0x14000020#32 = .ok (.vperm128 0 32 0 0) ∧
    decodeWord 0x14000400#32 = .ok (.vperm128 0 64 0 0) ∧
    decodeWord 0x14000001#32 = .ok (.vperm128 0 0 32 0) ∧
    decodeWord 0x14000002#32 = .ok (.vperm128 0 0 64 0) ∧
    decodeWord 0x14000040#32 = .ok (.vperm128 0 0 0 1) := by decide

/-- R67: the low six bits of `vperm`'s opcode are operand bits under primary opcode 5 (K29). -/
theorem test_decode_opcode_bits_as_operands :
    decodeWord 0x1400002B#32 = .ok (.vperm128 64 32 96 0) := by decide

/-- The refused words X2, X4, X5, X7, X8, X9, X11. -/
theorem test_decode_refuses :
    decodeWord 0x1000002C#32 = .error .wordNotSpecified ∧
    decodeWord 0x14000010#32 = .error .wordNotSpecified ∧
    decodeWord 0x14000200#32 = .error .wordNotSpecified ∧
    decodeWord 0x17FFFFFF#32 = .error .wordNotSpecified ∧
    decodeWord 0x9000002B#32 = .error .wordNotSpecified ∧
    decodeWord 0x0C00002B#32 = .error .wordNotSpecified ∧
    decodeWord 0x00000000#32 = .error .wordNotSpecified := by decide

/-- R44: the bytes 10 61 10 2B are K8's word; three of them are no instruction. It is the witness of
EveryInstructionIsFourBytes. -/
theorem test_decode_bytes :
    decodeBytes [0x10#8, 0x61#8, 0x10#8, 0x2B#8, 0x99#8] = .ok (.vperm 3 1 2 0, [0x99#8]) ∧
    decodeBytes [0x10#8, 0x61#8, 0x10#8] = .error .truncated := by decide

/-- K28 and K26, encoded (R73). -/
theorem test_encode :
    encode (.vperm128 3 70 71 3) = 0x14663CC2#32 ∧ encode (.vperm128 96 33 70 3) = 0x140130EE#32 ∧
      encode (.vperm 20 9 17 30) = 0x12898FAB#32 := by decide

/-- The text of K8 and K23 (R78). -/
theorem test_text :
    Instr.text (.vperm 3 1 2 0) = "vperm v3, v1, v2, v0" ∧
      Instr.text (.vperm128 100 64 96 2) = "vperm128 v100, v64, v96, v2" := by decide

/-- The rows of the opcode table, by their match words. -/
theorem test_table_words :
    decodeTableWord 32 0x1000002B = some (.vperm 0 0 0 0) ∧
      decodeTableWord 32 0x14000000 = some (.vperm128 0 0 0 0) := by decide

/-! ### The permute function -/

/-- R9: byte 0 is the most significant. -/
theorem test_byte_order : vecByte dataA 0 = 0xA0#8 ∧ vecByte dataA 15 = 0xAF#8 := by decide

/-- T15: every combination of the ignored bits around the boundary of the sources. -/
theorem test_perm_ignored_bits :
    perm dataA dataB 0x20304F508F90EFF01F3F7FBF008060C0#128 =
      0xA0B0AFB0AFB0AFB0BFBFBFBFA0A0A0A0#128 := by decide

/-- T13 and T17. -/
theorem test_perm_interleave_and_drop :
    perm dataA dataB 0x081809190A1A0B1B0C1C0D1D0E1E0F1F#128 =
      0xA8B8A9B9AABAABBBACBCADBDAEBEAFBF#128 ∧
    perm dataA dataB 0x01030507090B0D0F11131517191B1D1F#128 =
      0xA1A3A5A7A9ABADAFB1B3B5B7B9BBBDBF#128 := by decide

/-! ### Steps -/

/-- W1. -/
theorem test_step_vperm :
    (nextOf (step (start 0x1000 0x1061102B#32))).map (fun t => (t.readVr 3, t.pc, t.readVr 1)) =
      some (0xA3A4A5A6A7A8A9AAABACADAEAFB0B1B2#128, 0x1004, dataA) := by decide

/-- The first step of P4 (T21): all four registers the same. -/
theorem test_step_vperm_in_place :
    (nextOf (step ((start 0x4000 0x1021086B#32).writeVr 1 dataX))).map (fun t => t.readVr 1) =
      some 0x2367ABEF3276BAFE014589CD105498DC#128 := by decide

/-- W2. -/
theorem test_step_vperm128 :
    (nextOf (step ((start 0x2000 0x1480048F#32).writeVr 2 maskT12))).map
        (fun t => (t.readVr 100, t.pc)) =
      some (0xA0B0A1B1A2B2A3B3A4B4A5B5A6B6A7B7#128, 0x2004) := by decide

/-- T24 through K28: the destination is the mask's own register. -/
theorem test_step_vperm128_over_its_mask :
    (nextOf (step ((((start 0x2000 0x14663CC2#32).writeVr 70 dataA).writeVr 71 dataB).writeVr 3
        0x1F1E1D1C1B1A19181716151413121110#128))).map (fun t => t.readVr 3) =
      some 0xBFBEBDBCBBBAB9B8B7B6B5B4B3B2B1B0#128 := by decide

/-- W3: no wrap at the top of the address space. -/
theorem test_step_pc_overflow :
    refusalOf (step (start 0xFFFFFFFC 0x1000002B#32)) = some .pcOverflow := by decide

/-- W4. -/
theorem test_step_pc_misaligned :
    refusalOf (step (start 0x1002 0x1000002B#32)) = some .pcMisaligned := by decide

/-- W5. -/
theorem test_step_vector_unit_unavailable :
    refusalOf (step { start 0x1000 0x1061102B#32 with vecEnabled := false }) =
      some .vectorUnitUnavailable := by decide

/-- W6. -/
theorem test_step_undecoded_word :
    refusalOf (step (start 0x1000 0x14000010#32)) = some .wordNotSpecified := by decide

/-- R127: at the end address the run is over. -/
theorem test_step_end_of_run :
    step ((start 0x1000 0x1061102B#32).withPc 0x1004) = .fault .endOfRun := by rfl

/-- R44: another address outside the text is refused. -/
theorem test_step_nothing_at_pc :
    refusalOf (step ((start 0x1000 0x1061102B#32).withPc 0x1008)) = some .noInstructionAtPc := by
  decide

/-- The host's placing of an instruction makes it the first one to run after reset. -/
theorem test_first_instruction_after_reset :
    step (State.reset.withFetchWord 32 0x1000002B) =
      exec (.vperm 0 0 0 0) (State.reset.withFetchWord 32 0x1000002B) ∧
    (nextOf (step (State.reset.withFetchWord 32 0x14000000))).isSome = true := by
  exact ⟨rfl, by decide⟩

/-- Each refused word in memory: nothing but the word placed makes the fetch. -/
theorem test_text_canonical : Memory.wf (start 0x1000 0x1061102B#32).text = true := by decide

/-! ### Witnesses -/

/-- The state of W1, its instruction, and the state after it. -/
def s1 : State := start 0x1000 0x1061102B#32
def s2 : State := start 0x2000 0x1480048F#32
def t1 : State := (s1.writeVr 3 (perm dataA dataB maskT10)).withPc 0x1004

theorem test_witness_exec_next : exec (.vperm 3 1 2 0) s1 = .next t1 := by rfl
theorem test_witness_exec128_next : ∃ t, exec (.vperm128 100 64 96 2) s2 = .next t := ⟨_, rfl⟩
theorem test_witness_exec_refused :
    exec (.vperm 3 1 2 0) { s1 with vecEnabled := false } = .refused .vectorUnitUnavailable := by rfl

/-- VpermCompletes, Vperm128Completes, NoExceptionIsRaised: the last enabled address and the first
that is not. -/
theorem test_witness_enabled :
    s1.Enabled ∧ (s1.withPc 0xFFFFFFF8).Enabled ∧ ¬ (s1.withPc 0xFFFFFFFC).Enabled := by decide

theorem test_witness_PermSelectsEachByte :
    selIndex maskT19 1 = 15 ∧ selIndex maskT19 2 = 16 + 0 ∧ selIndex maskT19 3 = 16 + 15 ∧
      vecByte maskT19 0 = vecByte maskT1 0 := by decide

theorem test_witness_SelectorByteMeaning :
    (vecByte maskT19 1 &&& 0x0F#8).toNat = 15 ∧ vecByte maskT19 1 &&& 0x10#8 = 0x00#8 ∧
      (vecByte maskT19 3 &&& 0x0F#8).toNat = 15 ∧ vecByte maskT19 3 &&& 0x10#8 = 0x10#8 ∧
      vecByte maskT19 0 = 0x00#8 ∧ vecByte maskT19 1 = 0x0F#8 ∧ vecByte maskT19 2 = 0x10#8 ∧
      vecByte maskT19 3 = 0x1F#8 ∧ vecByte maskT6 0 = 0x5F#8 ∧
      ∀ i, vecByte maskT1 i &&& 0x1F#8 = vecByte maskT5 i &&& 0x1F#8 := by decide

theorem test_witness_PermReadsThePair : selIndex maskT2 15 = 31 ∧ selIndex maskT1 0 = 0 := by decide

theorem test_witness_PermIdentityAndSwapLaws :
    (∀ i, selIndex maskT1 i = i.val) ∧ (∀ i, selIndex maskT2 i = 16 + i.val) ∧
      (∀ i, selIndex maskT1 i = selIndex maskT5 i) ∧ (vecByte maskT2 7 &&& 0x0F#8).toNat = 7 := by
  decide

theorem test_witness_PermSplatShiftAndCompositionLaws :
    (∀ i, selIndex maskT6 i = 31) ∧ (∀ i, selIndex maskT1 i = 0 + i.val) ∧
      (∀ i, selIndex maskT2 i = 16 + i.val) ∧ (vecByte maskT12 1 &&& 0x0F#8).toNat = 0 ∧
      (vecByte maskT10 0 &&& 0x0F#8).toNat = 3 := by decide

/-- The statements about words that decode, one word of each instruction. -/
theorem test_witness_decoding_words :
    decodeWord 0x1061102B#32 = .ok (.vperm 3 1 2 0) ∧
      decodeWord 0x1480048F#32 = .ok (.vperm128 100 64 96 2) ∧
      (0x1061102B#32 &&& 0xFC00003F#32 = 0x1000002B#32) ∧
      (0x1480048F#32 &&& 0xFC000210#32 = 0x14000000#32) := by decide

/-- StepOnVpermWord, StepOnVperm128Word, StepRunsTheDecodedInstruction. -/
theorem test_witness_word_at_pc :
    (s1.endAddr ≠ some s1.pc ∧ s1.pc % 4 = 0 ∧
      Memory.readBytes s1.text s1.pc 4 = some (bytesOfWord 0x1061102B#32) ∧
      decodeBytes (bytesOfWord 0x1061102B#32) = .ok (.vperm 3 1 2 0, [])) ∧
    (s2.endAddr ≠ some s2.pc ∧ s2.pc % 4 = 0 ∧
      Memory.readBytes s2.text s2.pc 4 = some (bytesOfWord 0x1480048F#32)) := by decide

/-- StepStopsExactlyWhen: an undecoded word at `pc`, whose other conditions the step tests show. -/
theorem test_witness_undecoded_word_at_pc :
    Memory.readBytes (start 0x1000 0x14000010#32).text 0x1000 4 =
        some (bytesOfWord 0x14000010#32) ∧
      0x14000010#32 &&& 0xFC00003F#32 ≠ 0x1000002B#32 ∧
      0x14000010#32 &&& 0xFC000210#32 ≠ 0x14000000#32 := by decide

/-- ThreeReadsThenOneWholeWrite: two states alike in the sources and unlike in the destination. -/
theorem test_witness_ThreeReadsThenOneWholeWrite :
    (s1.writeVr 3 dataX).readVr 1 = s1.readVr 1 ∧ (s1.writeVr 3 dataX).readVr 2 = s1.readVr 2 ∧
      (s1.writeVr 3 dataX).readVr 0 = s1.readVr 0 ∧
      (s1.writeVr 3 dataX).readVr 3 ≠ s1.readVr 3 := by decide

theorem test_witness_alike_sources_both_complete :
    (∃ t, exec (.vperm 3 1 2 0) (s1.writeVr 3 dataX) = .next t) ∧
      (∃ t, exec (.vperm128 3 1 2 0) s1 = .next t) ∧
      (∃ t, exec (.vperm128 3 1 2 0) (s1.writeVr 3 dataX) = .next t) :=
  ⟨⟨_, rfl⟩, ⟨_, rfl⟩, ⟨_, rfl⟩⟩

/-- AliasingIsLegal. -/
theorem test_witness_AliasingIsLegal :
    s1.Enabled ∧ (∃ t, exec (.vperm 3 1 1 0) s1 = .next t) ∧
      (∃ t, exec (.vperm128 1 1 1 1) s1 = .next t) ∧
      (vecByte (s1.readVr 0) 15 &&& 0x0F#8).toNat = 2 ∧
      (vecByte (s1.readVr 1) 15 &&& 0x0F#8).toNat = 15 :=
  ⟨by decide, ⟨_, rfl⟩, ⟨_, rfl⟩, by decide, by decide⟩

/-- OneSharedRegisterFile, NextInstructionReadsTheNewValue: one instruction after another. -/
theorem test_witness_two_instructions :
    (∃ t u, exec (.vperm128 5 64 96 2) s1 = .next t ∧ exec (.vperm 6 5 4 0) t = .next u) ∧
      (∃ t u, exec (.vperm 5 1 2 0) s1 = .next t ∧ exec (.vperm128 100 5 96 5) t = .next u) :=
  ⟨⟨_, _, rfl, rfl⟩, ⟨_, _, rfl, rfl⟩⟩

theorem test_witness_EveryRegisterCanBeReadAndWritten :
    (s1.writeVr 0 maskT1).Enabled ∧ ∀ i, selIndex ((s1.writeVr 0 maskT1).readVr 0) i = i.val := by
  decide

/-- PcIsNotReadAsData: the highest address that leaves room. -/
theorem test_witness_PcIsNotReadAsData : 0xFFFFFFFB + 4 < 2 ^ s1.pcBits := by decide

/-- UnalignedViewIdiom, at a shift of 3, of 0 and of 15 (T10, T1, T11). -/
theorem test_witness_UnalignedViewIdiom :
    s1.Enabled ∧ (∀ i, selIndex (s1.readVr 0) i = 3 + i.val) ∧
      (∀ i, selIndex ((s1.writeVr 0 maskT1).readVr 0) i = 0 + i.val) ∧
      ∀ i, selIndex ((s1.writeVr 0 0x0F101112131415161718191A1B1C1D1E#128).readVr 0) i =
        15 + i.val := by decide

/-- StepKeepsTheInvariant, StepLeavesLaunchAndRest. -/
theorem test_witness_StepKeepsTheInvariant : s1.Inv ∧ step s1 = .next t1 := ⟨by decide, rfl⟩

/-- LaunchPlacesExactlyTheWords. -/
theorem test_witness_LaunchPlacesExactlyTheWords :
    0x1000 % 4 = 0 ∧ 0x1000 < 2 ^ State.reset.pcBits ∧ Memory.wf State.reset.rest.mem = true ∧
      [0x1061102B#32] ≠ [] ∧ State.reset.vecEnabled = true ∧ s1.LaunchOk := by decide

/-- StraightLineRunsToItsEnd, for one instruction up to the end address. -/
theorem test_witness_StraightLineRunsToItsEnd :
    s1.pc % 4 = 0 ∧ s1.vecEnabled = true ∧ s1.pc + 4 * 1 < 2 ^ s1.pcBits ∧
      s1.endAddr ≠ some (s1.pc + 4 * 0) ∧ (∃ i, s1.InstrAt (s1.pc + 4 * 0) i) ∧
      s1.endAddr = some (s1.pc + 4 * 1) :=
  ⟨by decide, by decide, by decide, by decide, ⟨.vperm 3 1 2 0, _, [], rfl, rfl⟩, by decide⟩

/-- CodeIsPositionIndependent: a run that completes, and another base with room. -/
theorem test_witness_CodeIsPositionIndependent :
    0x5000 % 4 = 0 ∧ 0x5000 + 4 * [0x1061102B#32].length < 2 ^ State.reset.pcBits ∧
      ∃ t, runSteps 1 (State.reset.launchProgram 0x1000 [0x1061102B#32]) = .next t :=
  ⟨by decide, by decide, ⟨_, rfl⟩⟩

/-- CanonicalMemoriesThatReadAlikeAreEqual: two memories built in different orders. -/
theorem test_witness_CanonicalMemoriesThatReadAlikeAreEqual :
    Memory.wf (Memory.write (Memory.write [] 5 1#8) 3 2#8) = true ∧
      Memory.wf [(3, 2#8), (5, 1#8)] = true ∧
      ∀ a, Memory.read (Memory.write (Memory.write [] 5 1#8) 3 2#8) a =
        Memory.read [(3, 2#8), (5, 1#8)] a :=
  ⟨by decide, by decide, fun _ => rfl⟩

end Sys2Proof.Tests
end

section
/-! PROOF. The byte numbering of a vector register (00_scope.md R9). -/

namespace Sys2Proof.Machine

/-- Byte `i` as a digit of the register in base 256, byte 15 in the lowest place. -/
theorem vecByte_toNat (v : Vec128) (i : Fin 16) :
    (vecByte v i).toNat = v.toNat / 256 ^ (15 - i.val) % 256 := by
  rw [vecByte, BitVec.toNat_setWidth, BitVec.toNat_ushiftRight, Nat.shiftRight_eq_div_pow,
    Nat.pow_mul]

/-- A number of `n` digits in base `b` is the sum of its digits, each times the weight of its place. -/
theorem eq_sum_digits {b n x : Nat} (hx : x < b ^ n) :
    x = ∑ i : Fin n, x / b ^ i.val % b * b ^ i.val :=
  (congrArg Fin.val (finFunctionFinEquiv.apply_symm_apply (⟨x, hx⟩ : Fin (b ^ n)))).symm

/-- R9, first half: a register is the number whose base 256 digits are its bytes, byte 0 first. -/
theorem toNat_eq_sum_vecByte (v : Vec128) :
    v.toNat = ∑ i : Fin 16, (vecByte v i).toNat * 256 ^ (15 - i.val) := by
  have hrev (i : Fin 16) : 15 - i.val = (Fin.revPerm i).val := by
    rw [Fin.revPerm_apply, Fin.val_rev]
    omega
  simp only [vecByte_toNat, hrev]
  rw [Equiv.sum_comp Fin.revPerm fun i => v.toNat / 256 ^ i.val % 256 * 256 ^ i.val]
  exact eq_sum_digits v.isLt

/-- Settles O7: the bytes are the digits of the register in base 256, byte 0 in the highest place. -/
theorem registerByteNumbering : Obligations.RegisterByteNumbering := by
  intro v
  have hweight (k : Nat) : 2 ^ (8 * k) = 256 ^ k := Nat.pow_mul 2 8 k
  constructor
  · simpa only [hweight] using toNat_eq_sum_vecByte v
  · intro i
    rw [vecByte_toNat, Nat.shiftRight_eq_div_pow, hweight]
    exact (Nat.and_two_pow_sub_one_eq_mod _ 8).symm

end Sys2Proof.Machine
end

section
/-! PROOF. The frame of an instruction and its one whole write (10_state.md R23, R29). -/

namespace Sys2Proof.Machine

/-- Everything an instruction can answer as a next state: the one write and the advance of `pc`, in an
enabled state (R23, R29). -/
theorem exec_eq_next {i : Instr} {s t : State} :
    exec i s = .next t ↔
      s.Enabled ∧ t = (s.writeVr (destOf i) (resultOf i s)).withPc (s.pc + 4) := by
  obtain ⟨vd, va, vb, vc, hdest, hexec, hresult⟩ := exec_cases i
  rw [hexec, hdest, hresult, permuteStep_eq_next]

/-- The destination holds `PERM` of what the sources held before. -/
theorem readVr_destOf_of_exec {i : Instr} {s t : State} (h : exec i s = .next t) :
    t.readVr (destOf i) = resultOf i s := by
  obtain ⟨-, rfl⟩ := exec_eq_next.mp h
  simp

/-- No other vector register is written. -/
theorem readVr_of_exec_of_ne {i : Instr} {s t : State} (h : exec i s = .next t) {n : VReg}
    (hn : n ≠ destOf i) : t.readVr n = s.readVr n := by
  obtain ⟨-, rfl⟩ := exec_eq_next.mp h
  simp [hn]

/-- The fields beside the vector registers: `pc` moves by 4, the rest and the launch stay. -/
theorem frame_of_exec {i : Instr} {s t : State} (h : exec i s = .next t) :
    t.pc = s.pc + 4 ∧ t.rest = s.rest ∧ s.SameLaunch t := by
  obtain ⟨-, rfl⟩ := exec_eq_next.mp h
  simp [State.SameLaunch]

/-- Settles O23: the registers by the one write, and every other field, hence every byte of memory
and every status register, by the frame. -/
theorem onlyDestinationAndPcChange : Obligations.OnlyDestinationAndPcChange := by
  intro i s t h
  obtain ⟨hpc, hrest, hlaunch⟩ := frame_of_exec h
  refine ⟨readVr_destOf_of_exec h, fun _ => readVr_of_exec_of_ne h, hpc, ?_⟩
  have htext : t.text = s.text := hlaunch.1
  simpa [State.cr, State.xer, State.vscr, hrest, htext] using hlaunch

/-- States whose sources give the same result leave the same value in the destination, whatever it
held before. -/
theorem readVr_destOf_eq_of_resultOf_eq {i : Instr} {s s' t t' : State}
    (hresult : resultOf i s' = resultOf i s) (h : exec i s = .next t) (h' : exec i s' = .next t') :
    t.readVr (destOf i) = t'.readVr (destOf i) := by
  rw [readVr_destOf_of_exec h, readVr_destOf_of_exec h', hresult]

/-- Settles O24: the result is a function of the three sources, and it is the one thing written to a
vector register. -/
theorem threeReadsThenOneWholeWrite : Obligations.ThreeReadsThenOneWholeWrite := by
  constructor
  · intro vd va vb vc s s' t t' ha hb hc
    exact ⟨readVr_destOf_eq_of_resultOf_eq (by simp only [resultOf, ha, hb, hc]),
      readVr_destOf_eq_of_resultOf_eq (by simp only [resultOf, ha, hb, hc])⟩
  · exact fun i s t h => ⟨readVr_destOf_of_exec h, fun _ => readVr_of_exec_of_ne h⟩

end Sys2Proof.Machine
end

section
/-! PROOF. What an instruction does beside data memory (20_memory.md R40). -/

namespace Sys2Proof.Machine

/-- What an instruction computes is read from vector registers alone. -/
@[simp] theorem resultOf_withRest (i : Instr) (s : State) (r : Rest) :
    resultOf i (s.withRest r) = resultOf i s := by
  obtain ⟨vd, va, vb, vc, -, -, hresult⟩ := exec_cases i
  simp only [hresult, withRest_readVr]

/-- An instruction completes alike whatever `rest` holds, and passes it on. -/
theorem exec_withRest {i : Instr} {s t : State} (h : exec i s = .next t) (r : Rest) :
    exec i (s.withRest r) = .next (t.withRest r) := by
  obtain ⟨henabled, rfl⟩ := exec_eq_next.mp h
  refine exec_eq_next.mpr ⟨by simpa [State.Enabled] using henabled, ?_⟩
  rw [resultOf_withRest, withRest_writeVr, withRest_withPc, withRest_pc]

/-- Settles O28: data memory is part of `rest`, which an instruction keeps and does not look at. -/
theorem noDataMemoryAccess : Obligations.NoDataMemoryAccess := by
  intro i s t h
  obtain ⟨-, hrest, -⟩ := frame_of_exec h
  refine ⟨fun a => by rw [hrest], fun m => ?_⟩
  have hmem : t.withMem m = t.withRest { s.rest with mem := m } := by rw [State.withMem, hrest]
  rw [hmem]
  exact exec_withRest h _

end Sys2Proof.Machine
end

section
/-! PROOF. The fields of a word, the masks that read them, and the words of the two instructions
(30_encoding.md R61, R64, R68, R70). -/

namespace Sys2Proof

/-- A mask that covers one field keeps the field, in its place. -/
theorem and_fieldMask (w : Word) (i j : Nat) :
    w.toNat &&& (2 ^ (j - i + 1) - 1) <<< (31 - j) = field w i j <<< (31 - j) := by
  refine Nat.eq_of_testBit_eq fun k => ?_
  by_cases hk : 31 - j ≤ k <;> simp [field, hk, Bool.and_comm]

/-- The mask of R64 keeps the primary opcode and the extended opcode. -/
theorem and_vpermMask_toNat (w : Word) :
    (w &&& 0xFC00003F#32).toNat = field w 26 31 + field w 0 5 * 2 ^ 26 := by
  have hsplit : 0xFC00003F = (2 ^ 6 - 1) <<< 0 ||| (2 ^ 6 - 1) <<< 26 := by decide
  have hlow : w.toNat &&& (2 ^ 6 - 1) <<< 0 = field w 26 31 := and_fieldMask w 26 31
  have hhigh : w.toNat &&& (2 ^ 6 - 1) <<< 26 = field w 0 5 <<< 26 := and_fieldMask w 0 5
  have hlt : field w 26 31 < 2 ^ 6 := field_lt w 26 31
  rw [BitVec.toNat_and, BitVec.toNat_ofNat, Nat.mod_eq_of_lt (by norm_num), hsplit,
    Nat.and_or_distrib_left, hlow, hhigh, or_shiftLeft_eq_add _ _ 26 6 (field_lt w 0 5) (by omega)]

/-- The mask of R65 keeps the primary opcode and bits 22 and 27. -/
theorem and_vperm128Mask_toNat (w : Word) :
    (w &&& 0xFC000210#32).toNat =
      field w 27 27 * 2 ^ 4 + field w 22 22 * 2 ^ 9 + field w 0 5 * 2 ^ 26 := by
  have hsplit : 0xFC000210 = (2 ^ 1 - 1) <<< 4 ||| (2 ^ 1 - 1) <<< 9 ||| (2 ^ 6 - 1) <<< 26 := by
    decide
  have hbit27 : w.toNat &&& (2 ^ 1 - 1) <<< 4 = field w 27 27 <<< 4 := and_fieldMask w 27 27
  have hbit22 : w.toNat &&& (2 ^ 1 - 1) <<< 9 = field w 22 22 <<< 9 := and_fieldMask w 22 22
  have hhigh : w.toNat &&& (2 ^ 6 - 1) <<< 26 = field w 0 5 <<< 26 := and_fieldMask w 0 5
  have hlt27 : field w 27 27 < 2 ^ 1 := field_lt w 27 27
  have hlt22 : field w 22 22 < 2 ^ 1 := field_lt w 22 22
  rw [BitVec.toNat_and, BitVec.toNat_ofNat, Nat.mod_eq_of_lt (by norm_num), hsplit,
    Nat.and_or_distrib_left, Nat.and_or_distrib_left, hbit27, hbit22, hhigh, Nat.shiftLeft_eq,
    or_shiftLeft_eq_add _ _ 9 1 hlt22 (by omega),
    or_shiftLeft_eq_add _ _ 26 6 (field_lt w 0 5) (by omega)]

/-- R64, from the mask and match to the two opcodes. -/
theorem and_vpermMask_eq_iff (w : Word) :
    w &&& 0xFC00003F#32 = 0x1000002B#32 ↔ field w 0 5 = 4 ∧ field w 26 31 = 43 := by
  have hlt : field w 26 31 < 2 ^ 6 := field_lt w 26 31
  rw [← BitVec.toNat_inj, and_vpermMask_toNat, BitVec.toNat_ofNat]
  omega

/-- R65, from the mask and match to the primary opcode and bits 22 and 27. -/
theorem and_vperm128Mask_eq_iff (w : Word) :
    w &&& 0xFC000210#32 = 0x14000000#32 ↔
      field w 0 5 = 5 ∧ field w 22 22 = 0 ∧ field w 27 27 = 0 := by
  have hlt27 : field w 27 27 < 2 ^ 1 := field_lt w 27 27
  have hlt22 : field w 22 22 < 2 ^ 1 := field_lt w 22 22
  rw [← BitVec.toNat_inj, and_vperm128Mask_toNat, BitVec.toNat_ofNat]
  omega

theorem isVperm_iff (w : Word) : isVperm w = true ↔ field w 0 5 = 4 ∧ field w 26 31 = 43 := by
  rw [isVperm, beq_iff_eq, and_vpermMask_eq_iff]

theorem isVperm128_iff (w : Word) :
    isVperm128 w = true ↔ field w 0 5 = 5 ∧ field w 22 22 = 0 ∧ field w 27 27 = 0 := by
  rw [isVperm128, beq_iff_eq, and_vperm128Mask_eq_iff]

/-- The primary opcodes keep the two instructions apart. -/
theorem isVperm_eq_false_of_isVperm128 {w : Word} (h : isVperm128 w = true) :
    isVperm w = false := by
  rw [isVperm128_iff] at h
  rw [← Bool.not_eq_true, isVperm_iff]
  omega

/-- The words of `vperm`, and the registers each names. -/
theorem decodeWord_eq_vperm {w : Word} {vd va vb vc : VReg} :
    decodeWord w = .ok (.vperm vd va vb vc) ↔
      isVperm w = true ∧ vd = vreg (field w 6 10) ∧ va = vreg (field w 11 15) ∧
        vb = vreg (field w 16 20) ∧ vc = vreg (field w 21 25) := by
  obtain ⟨hv, hd⟩ | ⟨hv, -, hd⟩ | ⟨hv, -, hd⟩ := decodeWord_cases w <;> simp [hv, hd, eq_comm]

/-- The words of `vperm128`, and the registers each names. -/
theorem decodeWord_eq_vperm128 {w : Word} {vd va vb vc : VReg} :
    decodeWord w = .ok (.vperm128 vd va vb vc) ↔
      isVperm128 w = true ∧ vd = vreg (vd128 w) ∧ va = vreg (va128 w) ∧ vb = vreg (vb128 w) ∧
        vc = vreg (vc128 w) := by
  obtain ⟨hv, hd⟩ | ⟨-, hv, hd⟩ | ⟨-, hv, hd⟩ := decodeWord_cases w
  · have hv128 : isVperm128 w ≠ true := fun h => by simp [isVperm_eq_false_of_isVperm128 h] at hv
    simp [hv128, hd]
  · simp [hv, hd, eq_comm]
  · simp [hv, hd]

/-- Settles O8: the decoder tests the mask, which keeps the two opcodes and nothing else. -/
theorem vpermWordsExactly : Obligations.VpermWordsExactly := by
  intro w
  refine ⟨?_, (and_vpermMask_eq_iff w).symm⟩
  rw [← isVperm_iff]
  constructor
  · rintro ⟨vd, va, vb, vc, h⟩
    exact (decodeWord_eq_vperm.mp h).1
  · exact fun h => ⟨_, _, _, _, decodeWord_eq_vperm.mpr ⟨h, rfl, rfl, rfl, rfl⟩⟩

/-- Settles O10: nothing stands above bit 0, so the top field is the shifted word. -/
theorem primaryOpcodeIsTopSixBits : Obligations.PrimaryOpcodeIsTopSixBits := by
  intro w vd va vb vc
  refine ⟨?_, fun h => ?_, fun h => ?_⟩
  · rw [field_eq, Nat.shiftRight_eq_div_pow]
    exact Nat.mod_eq_of_lt (Nat.div_lt_of_lt_mul w.isLt)
  · exact ((isVperm_iff w).mp (decodeWord_eq_vperm.mp h).1).1
  · exact ((isVperm128_iff w).mp (decodeWord_eq_vperm128.mp h).1).1

/-- A 5-bit field names the register of its own number. -/
theorem vreg_field_val {w : Word} {i j : Nat} (h : j - i = 4) :
    (vreg (field w i j)).val = field w i j ∧ (vreg (field w i j)).val ≤ 31 := by
  have hlt := field_lt w i j
  rw [h] at hlt
  rw [vreg_val (by omega)]
  omega

/-- Settles O11: each register number is its field, since a 5-bit number is below 128. -/
theorem vpermRegistersAreContiguousFields : Obligations.VpermRegistersAreContiguousFields := by
  intro w vd va vb vc h
  obtain ⟨-, rfl, rfl, rfl, rfl⟩ := decodeWord_eq_vperm.mp h
  obtain ⟨hd, hd31⟩ := vreg_field_val (w := w) (i := 6) (j := 10) rfl
  obtain ⟨ha, ha31⟩ := vreg_field_val (w := w) (i := 11) (j := 15) rfl
  obtain ⟨hb, hb31⟩ := vreg_field_val (w := w) (i := 16) (j := 20) rfl
  obtain ⟨hc, hc31⟩ := vreg_field_val (w := w) (i := 21) (j := 25) rfl
  exact ⟨⟨hd, ha, hb, hc⟩, hd31, ha31, hb31, hc31⟩

theorem va128_lt (w : Word) : va128 w < 128 := by
  have hH : field w 21 21 < 2 ^ 1 := field_lt w 21 21
  have hh : field w 26 26 < 2 ^ 1 := field_lt w 26 26
  have hl : field w 11 15 < 2 ^ 5 := field_lt w 11 15
  rw [va128]
  omega

/-- R70, the shift form: the three pieces of source A do not overlap. -/
theorem va128_eq_or (w : Word) :
    va128 w = ((w.toNat >>> 16) &&& 0x1F) ||| (((w.toNat >>> 5) &&& 1) <<< 5) |||
      (((w.toNat >>> 10) &&& 1) <<< 6) := by
  have hh : field w 26 26 < 2 ^ 1 := field_lt w 26 26
  have hl : field w 11 15 < 2 ^ 5 := field_lt w 11 15
  symm
  calc field w 11 15 ||| field w 26 26 <<< 5 ||| field w 21 21 <<< 6
      = field w 11 15 + field w 26 26 * 2 ^ 5 + field w 21 21 * 2 ^ 6 := by
        rw [or_shiftLeft_eq_add _ _ 5 1 hh (by omega),
          or_shiftLeft_eq_add _ _ 6 1 (field_lt w 21 21) (by omega)]
    _ = va128 w := by
        rw [va128]
        omega

/-- Settles O12: the number is below 128, so it is the register's, and its pieces do not overlap. -/
theorem vperm128SourceANumber : Obligations.Vperm128SourceANumber := by
  intro w vd va vb vc h
  obtain ⟨-, -, rfl, -, -⟩ := decodeWord_eq_vperm128.mp h
  have hlt := va128_lt w
  rw [vreg_val hlt]
  exact ⟨rfl, by omega, va128_eq_or w⟩

end Sys2Proof
end

section
/-! PROOF. The length of an instruction (30_encoding.md R60). -/

namespace Sys2Proof.Machine

/-- A word is never too short. -/
theorem decodeWord_ne_truncated (w : Word) : decodeWord w ≠ .error .truncated := by
  obtain ⟨-, h⟩ | ⟨-, -, h⟩ | ⟨-, -, h⟩ := decodeWord_cases w <;> simp [h]

/-- Bytes are lacking exactly below four. -/
theorem decodeBytes_eq_truncated {bs : List Byte} :
    decodeBytes bs = .error .truncated ↔ bs.length < 4 := by
  match bs with
  | [] | [_] | [_, _] | [_, _, _] => simp [decodeBytes]
  | b0 :: b1 :: b2 :: b3 :: rest =>
    cases hd : decodeWord (wordOfBytes b0 b1 b2 b3) with
    | ok i => simp [decodeBytes, hd]
    | error e =>
      have he : e ≠ .truncated := by
        rintro rfl
        exact decodeWord_ne_truncated _ hd
      simp [decodeBytes, hd, he]

/-- Settles O14: what is decoded is four bytes and a tail it does not look at, and what is executed
moves `pc` by 4. -/
theorem everyInstructionIsFourBytes : Obligations.EveryInstructionIsFourBytes := by
  refine ⟨?_, fun _ => decodeBytes_eq_truncated, ?_, fun _ _ _ h => (frame_of_exec h).1⟩
  · intro bs i tail h
    obtain ⟨b0, b1, b2, b3, rfl, -⟩ := decodeBytes_eq_ok.mp h
    exact ⟨rfl, by simp only [List.length_cons]; omega⟩
  · intro b0 b1 b2 b3 tail tail' i h
    obtain ⟨_, _, _, _, ⟨⟩, hword⟩ := decodeBytes_eq_ok.mp h
    exact decodeBytes_eq_ok.mpr ⟨b0, b1, b2, b3, rfl, hword⟩

end Sys2Proof.Machine
end

section
/-! PROOF. The permute function, byte by byte (40_vector_permute.md R80, R83, R89). -/

namespace Sys2Proof.Machine

/-- R80: byte `i` of `PERM` is the byte that byte `i` of the mask selects. -/
@[simp] theorem vecByte_perm (a b c : Vec128) (i : Fin 16) :
    vecByte (perm a b c) i = selectByte a b (vecByte c i) := by
  rw [perm, vecByte_vecOfBytes]

/-- An index below 16 chooses that byte of the first source (R80). -/
theorem selectByte_of_index_left {a b : Vec128} {sel : Byte} {k : Fin 16}
    (h : (sel &&& 0x1F#8).toNat = k.val) : selectByte a b sel = vecByte a k := by
  simp [selectByte, h]

/-- An index from 16 on chooses a byte of the second source (R80). -/
theorem selectByte_of_index_right {a b : Vec128} {sel : Byte} {k : Fin 16}
    (h : (sel &&& 0x1F#8).toNat = 16 + k.val) : selectByte a b sel = vecByte b k := by
  simp [selectByte, h]

/-- Nothing of a selector but its low five bits is looked at. -/
theorem selectByte_congr {a b : Vec128} {sel sel' : Byte} (h : sel &&& 0x1F#8 = sel' &&& 0x1F#8) :
    selectByte a b sel = selectByte a b sel' := by
  rw [selectByte, selectByte, h]

theorem selectorIndex_le (sel : Byte) : (sel &&& 0x1F#8).toNat ≤ 31 := by
  rw [BitVec.toNat_and]
  exact Nat.and_le_right

/-- Every selector names a byte of the first source or one of the second. -/
theorem selectorIndex_cases (sel : Byte) :
    (∃ k : Fin 16, (sel &&& 0x1F#8).toNat = k.val) ∨
      ∃ k : Fin 16, (sel &&& 0x1F#8).toNat = 16 + k.val := by
  have hle := selectorIndex_le sel
  by_cases hlt : (sel &&& 0x1F#8).toNat < 16
  · exact .inl ⟨⟨_, hlt⟩, rfl⟩
  · exact .inr ⟨⟨(sel &&& 0x1F#8).toNat - 16, by omega⟩, by simp only; omega⟩

/-- The index is the bit of weight 16 together with the low four bits (R83). -/
theorem and_0x1F_eq_or (sel : Byte) : sel &&& 0x1F#8 = (sel &&& 0x10#8) ||| (sel &&& 0x0F#8) := by
  rw [← BitVec.and_or_distrib_left]
  rfl

theorem selectorIndex_of_bit_clear {sel : Byte} (h : sel &&& 0x10#8 = 0x00#8) :
    (sel &&& 0x1F#8).toNat = (sel &&& 0x0F#8).toNat := by
  rw [and_0x1F_eq_or, h, BitVec.zero_or]

theorem selectorIndex_of_bit_set {sel : Byte} (h : sel &&& 0x10#8 = 0x10#8) :
    (sel &&& 0x1F#8).toNat = 16 + (sel &&& 0x0F#8).toNat := by
  have hlow : (sel &&& 0x0F#8).toNat < 2 ^ 4 := by
    rw [BitVec.toNat_and]
    exact Nat.and_lt_two_pow _ (by decide)
  rw [and_0x1F_eq_or, h, BitVec.toNat_or]
  exact (Nat.two_pow_add_eq_or_of_lt hlow 1).symm

/-- The bit of weight 16 is clear or set. -/
theorem and_0x10_cases (sel : Byte) : sel &&& 0x10#8 = 0x00#8 ∨ sel &&& 0x10#8 = 0x10#8 := by
  have hbit : (0x10#8 : Byte) = BitVec.twoPow 8 4 := rfl
  rw [hbit, BitVec.and_twoPow]
  cases sel.getLsbD 4 <;> simp

/-- With equal sources the low four bits alone choose (R86). -/
theorem selectByte_self {a : Vec128} {sel : Byte} {k : Fin 16}
    (h : (sel &&& 0x0F#8).toNat = k.val) : selectByte a a sel = vecByte a k := by
  rcases and_0x10_cases sel with hbit | hbit
  · exact selectByte_of_index_left (by rw [selectorIndex_of_bit_clear hbit, h])
  · exact selectByte_of_index_right (by rw [selectorIndex_of_bit_set hbit, h])

/-- Selecting commutes with any map of the bytes of both sources (R89). -/
theorem selectByte_map (f : Byte → Byte) (a b : Vec128) (sel : Byte) :
    selectByte (vecOfBytes fun i => f (vecByte a i)) (vecOfBytes fun i => f (vecByte b i)) sel =
      f (selectByte a b sel) := by
  obtain ⟨k, hk⟩ | ⟨k, hk⟩ := selectorIndex_cases sel
  · simp [selectByte_of_index_left hk]
  · simp [selectByte_of_index_right hk]

/-- Settles O1: the index is below 16 and names a byte of `a`, or is 16 and up and names one of `b`. -/
theorem permSelectsEachByte : Obligations.PermSelectsEachByte := by
  refine ⟨fun c i => selectorIndex_le _, fun a b c i k h => ?_, fun a b c i k h => ?_, ?_⟩
  · rw [vecByte_perm, selectByte_of_index_left h]
  · rw [vecByte_perm, selectByte_of_index_right h]
  · intro a b c a' b' c' i hc ha hb
    rw [vecByte_perm, vecByte_perm, ← hc]
    obtain ⟨k, hk⟩ | ⟨k, hk⟩ := selectorIndex_cases (vecByte c i)
    · rw [selectByte_of_index_left hk, selectByte_of_index_left hk, ha k hk]
    · rw [selectByte_of_index_right hk, selectByte_of_index_right hk, hb k hk]

/-- Byte 0 is the most significant: nothing stands above it. -/
theorem vecByte_zero_toNat (v : Vec128) : (vecByte v 0).toNat = v.toNat / 2 ^ 120 := by
  rw [vecByte_toNat]
  exact Nat.mod_eq_of_lt (Nat.div_lt_of_lt_mul v.isLt)

/-- Settles O2: the index is the weight-16 bit and the low four bits, which each listed selector
spells out. -/
theorem selectorByteMeaning : Obligations.SelectorByteMeaning := by
  refine ⟨fun a b c i k hk => ⟨fun hbit => ?_, fun hbit => ?_⟩, fun a b c i => ?_,
    vecByte_zero_toNat, fun a b c c' h => vec_ext fun i => ?_⟩
  · rw [vecByte_perm, selectByte_of_index_left ((selectorIndex_of_bit_clear hbit).trans hk)]
  · rw [vecByte_perm, selectByte_of_index_right (by rw [selectorIndex_of_bit_set hbit, hk])]
  · rw [vecByte_perm]
    refine ⟨fun h => ?_, fun h => ?_, fun h => ?_, fun h => ?_, fun h => ?_⟩ <;> rw [h]
    · exact selectByte_of_index_left rfl
    · exact selectByte_of_index_left rfl
    · exact selectByte_of_index_right rfl
    · exact selectByte_of_index_right rfl
    · exact selectByte_of_index_right rfl
  · rw [vecByte_perm, vecByte_perm, selectByte_congr (h i)]

/-- Settles O4: each byte of the result is one byte of the sources, chosen by the mask alone. -/
theorem permMovesBytesUninterpreted : Obligations.PermMovesBytesUninterpreted := by
  intro f a b c
  refine vec_ext fun i => ?_
  rw [vecByte_perm, vecByte_vecOfBytes, vecByte_perm, selectByte_map]

end Sys2Proof.Machine
end

section
/-! PROOF. What the two instructions do in every enabled state, and what can stop them
(40_vector_permute.md R81, R86, R87, R88). -/

namespace Sys2Proof.Machine

/-- In an enabled state every instruction completes. -/
theorem exec_completes_of_enabled {s : State} (h : s.Enabled) (i : Instr) :
    ∃ t, exec i s = .next t :=
  ⟨_, exec_eq_next.mpr ⟨h, rfl⟩⟩

/-- Settles O27: every instruction is the permute step, which has no faulting branch. -/
theorem noExceptionIsRaised : Obligations.NoExceptionIsRaised := by
  refine fun i s => ⟨fun f => ?_, fun h => exec_completes_of_enabled h i⟩
  obtain ⟨vd, va, vb, vc, -, hexec, -⟩ := exec_cases i
  rw [hexec]
  exact permuteStep_ne_fault

/-- What refuses an instruction is looked at outside `rest`. -/
theorem exec_withRest_refused {i : Instr} {s : State} {q : Refusal} (h : exec i s = .refused q)
    (r : Rest) : exec i (s.withRest r) = .refused q := by
  obtain ⟨vd, va, vb, vc, -, hexec, -⟩ := exec_cases i
  rw [hexec, permuteStep_eq_refused] at h ⊢
  exact h

/-- Settles O26: the status registers are part of `rest`, which an instruction keeps and does not
look at. -/
theorem noFlagReadOrWritten : Obligations.NoFlagReadOrWritten := by
  refine fun i s => ⟨fun t h => ?_, fun t r h => exec_withRest h r,
    fun q r h => exec_withRest_refused h r⟩
  obtain ⟨-, hrest, -⟩ := frame_of_exec h
  simp [State.cr, State.xer, State.vscr, hrest]

/-- With equal sources, the byte that the low four bits of the selector name (R86). -/
theorem vecByte_readVr_of_exec_self {vd va vc : VReg} {s t : State}
    (h : exec (.vperm vd va va vc) s = .next t ∨ exec (.vperm128 vd va va vc) s = .next t)
    {i k : Fin 16} (hk : (vecByte (s.readVr vc) i &&& 0x0F#8).toNat = k.val) :
    vecByte (t.readVr vd) i = vecByte (s.readVr va) k := by
  have hperm : t.readVr vd = perm (s.readVr va) (s.readVr va) (s.readVr vc) :=
    h.elim readVr_destOf_of_exec readVr_destOf_of_exec
  rw [hperm, vecByte_perm, selectByte_self hk]

/-- Settles O25: the result is read off before the write, whichever registers coincide; all four
equal is a case of equal sources. -/
theorem aliasingIsLegal : Obligations.AliasingIsLegal := by
  refine fun s henabled => ⟨fun i => ?_,
    fun vd va vc t h i k hk => vecByte_readVr_of_exec_self h hk,
    fun x t h i k hk => vecByte_readVr_of_exec_self h hk⟩
  obtain ⟨t, ht⟩ := exec_completes_of_enabled henabled i
  exact ⟨t, ht, readVr_destOf_of_exec ht⟩

/-- With the bytes of a word at `pc` that decodes, the step is the execution of its instruction. -/
theorem step_eq_exec_of_word {s : State} {w : Word} {i : Instr} (hend : s.endAddr ≠ some s.pc)
    (haligned : s.pc % 4 = 0) (hbytes : Memory.readBytes s.text s.pc 4 = some (bytesOfWord w))
    (hword : decodeWord w = .ok i) : step s = exec i s := by
  have hdecode : decodeBytes (bytesOfWord w) = .ok (i, []) := by
    simpa [hword] using decodeBytes_bytesOfWord w []
  have hfetch : fetch s = .next i := fetch_eq_next.mpr ⟨hend, haligned, _, [], hbytes, hdecode⟩
  rw [step, hfetch]

/-- Settles O21: the mask makes the word a `vperm`, the fetch hands it to `exec`, and `exec` completes
with its one write and its frame. -/
theorem stepOnVpermWord : Obligations.StepOnVpermWord := by
  intro s w hend haligned hbytes hmask hvec hroom
  have hword : decodeWord w = .ok (.vperm (vreg (field w 6 10)) (vreg (field w 11 15))
      (vreg (field w 16 20)) (vreg (field w 21 25))) :=
    decodeWord_eq_vperm.mpr
      ⟨(isVperm_iff w).mpr ((and_vpermMask_eq_iff w).mp hmask), rfl, rfl, rfl, rfl⟩
  obtain ⟨t, ht⟩ := exec_completes_of_enabled ⟨hvec, hroom⟩ _
  exact ⟨t, (step_eq_exec_of_word hend haligned hbytes hword).trans ht, readVr_destOf_of_exec ht,
    fun _ => readVr_of_exec_of_ne ht, frame_of_exec ht⟩

end Sys2Proof.Machine
end

section
/-! PROOF. Decoding and encoding are inverse to each other (30_encoding.md R66, R73). -/

namespace Sys2Proof

theorem vperm_wf_iff {vd va vb vc : VReg} :
    (Instr.vperm vd va vb vc).wf = true ↔
      vd.val < 32 ∧ va.val < 32 ∧ vb.val < 32 ∧ vc.val < 32 := by
  simp [Instr.wf, and_assoc]

theorem vperm128_wf_iff {vd va vb vc : VReg} :
    (Instr.vperm128 vd va vb vc).wf = true ↔ vc.val < 8 := by
  simp [Instr.wf]

/-- A field cut after bit `j` is its two parts, the left one weighing more. -/
theorem field_split (w : Word) {i j k : Nat} (h : i ≤ j ∧ j < k ∧ k ≤ 31) :
    field w i k = field w i j * 2 ^ (k - j) + field w (j + 1) k := by
  obtain ⟨hij, hjk, hk⟩ := h
  have hshift : 2 ^ (31 - j) = 2 ^ (31 - k) * 2 ^ (k - j) := by
    rw [← Nat.pow_add]
    congr 1
    omega
  have hwidth : 2 ^ (k - i + 1) = 2 ^ (k - j) * 2 ^ (j - i + 1) := by
    rw [← Nat.pow_add]
    congr 1
    omega
  have hright : k - (j + 1) + 1 = k - j := by omega
  rw [field_eq, field_eq, field_eq, hshift, ← Nat.div_div_eq_div_mul, hwidth, Nat.mod_mul, hright]
  ring

theorem field_zero_31 (w : Word) : field w 0 31 = w.toNat := by
  rw [field_eq]
  simpa using Nat.mod_eq_of_lt w.isLt

/-- A word cut into the fields of form VA (R62). -/
theorem toNat_eq_sum_vperm_fields (w : Word) :
    w.toNat = field w 0 5 * 2 ^ 26 + field w 6 10 * 2 ^ 21 + field w 11 15 * 2 ^ 16 +
      field w 16 20 * 2 ^ 11 + field w 21 25 * 2 ^ 6 + field w 26 31 := by
  have h0 : field w 0 31 = field w 0 5 * 2 ^ 26 + field w 6 31 := field_split w (by decide)
  have h6 : field w 6 31 = field w 6 10 * 2 ^ 21 + field w 11 31 := field_split w (by decide)
  have h11 : field w 11 31 = field w 11 15 * 2 ^ 16 + field w 16 31 := field_split w (by decide)
  have h16 : field w 16 31 = field w 16 20 * 2 ^ 11 + field w 21 31 := field_split w (by decide)
  have h21 : field w 21 31 = field w 21 25 * 2 ^ 6 + field w 26 31 := field_split w (by decide)
  rw [← field_zero_31 w, h0, h6, h11, h16, h21]
  ring

/-- A word cut into the fields of form VX128_2 (R63): those of form VA, the last two cut further. -/
theorem toNat_eq_sum_vperm128_fields (w : Word) :
    w.toNat = field w 0 5 * 2 ^ 26 + field w 6 10 * 2 ^ 21 + field w 11 15 * 2 ^ 16 +
      field w 16 20 * 2 ^ 11 + field w 21 21 * 2 ^ 10 + field w 22 22 * 2 ^ 9 +
      field w 23 25 * 2 ^ 6 + field w 26 26 * 2 ^ 5 + field w 27 27 * 2 ^ 4 +
      field w 28 29 * 2 ^ 2 + field w 30 31 := by
  have h21 : field w 21 25 = field w 21 21 * 2 ^ 4 + field w 22 25 := field_split w (by decide)
  have h22 : field w 22 25 = field w 22 22 * 2 ^ 3 + field w 23 25 := field_split w (by decide)
  have h26 : field w 26 31 = field w 26 26 * 2 ^ 5 + field w 27 31 := field_split w (by decide)
  have h27 : field w 27 31 = field w 27 27 * 2 ^ 4 + field w 28 31 := field_split w (by decide)
  have h28 : field w 28 31 = field w 28 29 * 2 ^ 2 + field w 30 31 := field_split w (by decide)
  rw [toNat_eq_sum_vperm_fields, h21, h22, h26, h27, h28]
  ring

/-- The fields of a word that is the sum of the pieces of `vperm`. -/
theorem fields_of_vperm_sum {w : Word} {d a b c : Nat}
    (h : w.toNat = 0x1000002B + d * 2 ^ 21 + a * 2 ^ 16 + b * 2 ^ 11 + c * 2 ^ 6)
    (hd : d < 32) (ha : a < 32) (hb : b < 32) (hc : c < 32) :
    field w 0 5 = 4 ∧ field w 26 31 = 43 ∧ field w 6 10 = d ∧ field w 11 15 = a ∧
      field w 16 20 = b ∧ field w 21 25 = c := by
  have hsum := toNat_eq_sum_vperm_fields w
  have h0 : field w 6 10 < 2 ^ 5 := field_lt w 6 10
  have h1 : field w 11 15 < 2 ^ 5 := field_lt w 11 15
  have h2 : field w 16 20 < 2 ^ 5 := field_lt w 16 20
  have h3 : field w 21 25 < 2 ^ 5 := field_lt w 21 25
  have h4 : field w 26 31 < 2 ^ 6 := field_lt w 26 31
  omega

theorem vd128_lt (w : Word) : vd128 w < 128 := by
  have hh : field w 28 29 < 2 ^ 2 := field_lt w 28 29
  have hl : field w 6 10 < 2 ^ 5 := field_lt w 6 10
  rw [vd128]
  omega

theorem vb128_lt (w : Word) : vb128 w < 128 := by
  have hh : field w 30 31 < 2 ^ 2 := field_lt w 30 31
  have hl : field w 16 20 < 2 ^ 5 := field_lt w 16 20
  rw [vb128]
  omega

theorem vc128_lt (w : Word) : vc128 w < 8 := field_lt w 23 25

/-- Every well-formed instruction is the one its word decodes to. -/
theorem decodeWord_encode {i : Instr} (h : i.wf = true) : decodeWord (encode i) = .ok i := by
  cases i with
  | vperm vd va vb vc =>
    obtain ⟨hd, ha, hb, hc⟩ := vperm_wf_iff.mp h
    obtain ⟨hopcd, hxo, fd, fa, fb, fc⟩ :=
      fields_of_vperm_sum (encVperm_toNat hd ha hb hc) hd ha hb hc
    rw [encode, decodeWord_eq_vperm, isVperm_iff, fd, fa, fb, fc]
    simp [hopcd, hxo]
  | vperm128 vd va vb vc =>
    have hc := vperm128_wf_iff.mp h
    obtain ⟨hopcd, h22, h27, fd1, fd0, fa2, fa1, fa0, fb1, fb0, fc⟩ :=
      fields_of_vperm128_sum (encVperm128_toNat vd.isLt va.isLt vb.isLt hc) (by omega) (by omega)
        (by omega) (by omega) (by omega) (by omega) (by omega) hc
    have hd : vd.val / 32 * 32 + vd.val % 32 = vd.val := Nat.div_add_mod' _ _
    have ha : va.val / 64 * 64 + va.val / 32 % 2 * 32 + va.val % 32 = va.val := by omega
    have hb : vb.val / 32 * 32 + vb.val % 32 = vb.val := Nat.div_add_mod' _ _
    rw [encode, decodeWord_eq_vperm128, isVperm128_iff, vd128, va128, vb128, vc128, fd1, fd0, fa2,
      fa1, fa0, fb1, fb0, fc, hd, ha, hb]
    simp [hopcd, h22, h27]

/-- Every field of a decoded word holds a number the instruction can name. -/
theorem wf_of_decodeWord {w : Word} {i : Instr} (h : decodeWord w = .ok i) : i.wf = true := by
  cases i with
  | vperm vd va vb vc =>
    obtain ⟨-, hd, ha, hb, hc⟩ := vpermRegistersAreContiguousFields w vd va vb vc h
    exact vperm_wf_iff.mpr (by omega)
  | vperm128 vd va vb vc =>
    obtain ⟨-, -, -, -, rfl⟩ := decodeWord_eq_vperm128.mp h
    have hc := vc128_lt w
    rw [vperm128_wf_iff, vreg_val (by omega)]
    exact hc

/-- A decoded word is the word of the instruction it decodes to: its opcode and its fields are the
whole of it. -/
theorem encode_of_decodeWord {w : Word} {i : Instr} (h : decodeWord w = .ok i) : encode i = w := by
  have hwf := wf_of_decodeWord h
  rw [← BitVec.toNat_inj]
  cases i with
  | vperm vd va vb vc =>
    obtain ⟨hd, ha, hb, hc⟩ := vperm_wf_iff.mp hwf
    obtain ⟨⟨fd, fa, fb, fc⟩, -⟩ := vpermRegistersAreContiguousFields w vd va vb vc h
    obtain ⟨hopcd, hxo⟩ := (isVperm_iff w).mp (decodeWord_eq_vperm.mp h).1
    have hsum := toNat_eq_sum_vperm_fields w
    rw [encode, encVperm_toNat hd ha hb hc]
    omega
  | vperm128 vd va vb vc =>
    obtain ⟨hw, rfl, rfl, rfl, rfl⟩ := decodeWord_eq_vperm128.mp h
    obtain ⟨hopcd, h22, h27⟩ := (isVperm128_iff w).mp hw
    have hsum := toNat_eq_sum_vperm128_fields w
    have hd : field w 6 10 < 2 ^ 5 := field_lt w 6 10
    have ha : field w 11 15 < 2 ^ 5 := field_lt w 11 15
    have ha1 : field w 26 26 < 2 ^ 1 := field_lt w 26 26
    have hb : field w 16 20 < 2 ^ 5 := field_lt w 16 20
    rw [encode, encVperm128_toNat (vreg _).isLt (vreg _).isLt (vreg _).isLt
      (vperm128_wf_iff.mp hwf), vreg_val (vd128_lt w), vreg_val (va128_lt w),
      vreg_val (vb128_lt w), vreg_val (Nat.lt_trans (vc128_lt w) (by decide)), vd128, va128, vb128,
      vc128]
    omega

/-- The instructions that have a word are the well-formed ones. -/
theorem exists_decodeWord_eq_iff {i : Instr} : (∃ w, decodeWord w = .ok i) ↔ i.wf = true :=
  ⟨fun ⟨_, h⟩ => wf_of_decodeWord h, fun h => ⟨encode i, decodeWord_encode h⟩⟩

/-- Four bytes decode as the word they make, whatever follows them (R44, R60). -/
theorem decodeBytes_cons (b0 b1 b2 b3 : Byte) (tail : List Byte) :
    decodeBytes (b0 :: b1 :: b2 :: b3 :: tail) =
      (decodeWord (wordOfBytes b0 b1 b2 b3)).map fun i => (i, tail) := by
  cases h : decodeWord (wordOfBytes b0 b1 b2 b3) <;> simp [decodeBytes, h, Except.map]

/-- The bytes of a word alone decode as the word does. -/
theorem decodeBytes_bytesOfWord_nil (w : Word) :
    decodeBytes (bytesOfWord w) = (decodeWord w).map fun i => (i, []) := by
  rw [bytesOfWord, decodeBytes_cons, wordOfBytes_bytesOfWord]

/-- Settles O15: the word decodes back, so the bytes do and the word determines the instruction; four
bytes are the word they make. -/
theorem decodeOfEncodeIsTheInstruction : Obligations.DecodeOfEncodeIsTheInstruction := by
  refine ⟨fun i h => decodeWord_encode h, fun i tail h => ?_, fun i j hi hj h => ?_,
    fun b0 b1 b2 b3 tail => ?_⟩
  · rw [encodeBytes, decodeBytes_bytesOfWord, decodeWord_encode h]
  · have hdecode := decodeWord_encode hi
    rw [h, decodeWord_encode hj] at hdecode
    exact (Except.ok.inj hdecode).symm
  · rw [← wordOfBytes_eq_ofNat, decodeBytes_cons]

/-- Settles O16: the fields of a decoded word are in range and are all of it beside the opcode. -/
theorem encodeOfDecodeIsTheWord : Obligations.EncodeOfDecodeIsTheWord :=
  fun _ _ h => ⟨wf_of_decodeWord h, encode_of_decodeWord h⟩

end Sys2Proof
end

section
/-! PROOF. What a step does when it completes, and what it keeps (10_state.md R24 to R26,
20_memory.md R44, 70_reset_and_hazards.md R126). -/

namespace Sys2Proof.Machine

/-- Everything a step can answer as a next state: the run is not over, `pc` is aligned, the word there
is an instruction, and the instruction answers it. -/
theorem step_eq_next_iff_exec {s t : State} :
    step s = .next t ↔
      s.endAddr ≠ some s.pc ∧ s.pc % 4 = 0 ∧ ∃ i, s.InstrAt s.pc i ∧ exec i s = .next t := by
  simp only [step_eq_next, fetch_eq_next, and_assoc, exists_and_left]

/-- Settles O38: a step moves `pc` by 4, to an address that an enabled state has room for, and leaves
the end address, the text and data memory alone. -/
theorem stepKeepsTheInvariant : Obligations.StepKeepsTheInvariant := by
  rintro s t ⟨haligned, -, hend, htext, hmem⟩ hstep
  obtain ⟨-, -, i, -, hexec⟩ := step_eq_next_iff_exec.mp hstep
  obtain ⟨⟨-, hroom⟩, -⟩ := exec_eq_next.mp hexec
  obtain ⟨hpc, hrest, htext', hend', -, hbits⟩ := frame_of_exec hexec
  refine ⟨by omega, by rwa [hpc, hbits], ?_, by rwa [htext'], by rwa [hrest]⟩
  rwa [State.endOk, hend', htext']

/-- Settles O37: the instruction at `pc` does all that the step does, and keeps its frame. -/
theorem stepLeavesLaunchAndRest : Obligations.StepLeavesLaunchAndRest := by
  intro s t hstep
  obtain ⟨-, -, i, hinstr, hexec⟩ := step_eq_next_iff_exec.mp hstep
  obtain ⟨hpc, hrest, hlaunch⟩ := frame_of_exec hexec
  exact ⟨hlaunch, hrest, hpc, i, hinstr, fun _ => readVr_of_exec_of_ne hexec⟩

/-- Settles O35: what the fetch asks for, and the enabled state that every instruction asks for. -/
theorem stepCompletesExactlyWhen : Obligations.StepCompletesExactlyWhen := by
  intro s
  constructor
  · rintro ⟨t, hstep⟩
    obtain ⟨hend, haligned, i, hinstr, hexec⟩ := step_eq_next_iff_exec.mp hstep
    exact ⟨hend, haligned, ⟨i, hinstr⟩, (exec_eq_next.mp hexec).1⟩
  · rintro ⟨hend, haligned, ⟨i, hinstr⟩, henabled⟩
    obtain ⟨t, hexec⟩ := exec_completes_of_enabled henabled i
    exact ⟨t, step_eq_next_iff_exec.mpr ⟨hend, haligned, i, hinstr, hexec⟩⟩

/-- With the fetch giving an instruction, the step is its execution. -/
theorem step_eq_exec_of_fetch {s : State} {i : Instr} (h : fetch s = .next i) :
    step s = exec i s := by
  rw [step, h]

/-- Settles O34: the fetch gives the decoded instruction, and what decodes is well formed. -/
theorem stepRunsTheDecodedInstruction : Obligations.StepRunsTheDecodedInstruction := by
  intro s i bs tail hend haligned hbytes hdecode
  obtain ⟨_, _, _, _, -, hword⟩ := decodeBytes_eq_ok.mp hdecode
  exact ⟨step_eq_exec_of_fetch (fetch_eq_next.mpr ⟨hend, haligned, bs, tail, hbytes, hdecode⟩),
    wf_of_decodeWord hword⟩

end Sys2Proof.Machine
end

section
/-! PROOF. What stops the machine (93_implementation_defined.md section 2). -/

namespace Sys2Proof.Machine

/-- Four bytes of memory are a word's. -/
theorem exists_word_of_readBytes {m : Memory} {a : Nat} {bs : List Byte}
    (h : Memory.readBytes m a 4 = some bs) : ∃ w, bs = bytesOfWord w := by
  obtain ⟨hlength, -⟩ := Memory.readBytes_eq_some.mp h
  obtain ⟨b0, b1, b2, b3, rfl⟩ := List.length_eq_four.mp hlength
  exact ⟨wordOfBytes b0 b1 b2 b3, (bytesOfWord_wordOfBytes b0 b1 b2 b3).symm⟩

/-- The bytes of a word determine it. -/
@[simp] theorem bytesOfWord_inj {w w' : Word} : bytesOfWord w = bytesOfWord w' ↔ w = w' := by
  refine ⟨fun h => ?_, fun h => h ▸ rfl⟩
  simp only [bytesOfWord, List.cons.injEq, and_true] at h
  obtain ⟨h24, h16, h8, h0⟩ := h
  rw [← wordOfBytes_bytesOfWord w, h24, h16, h8, h0, wordOfBytes_bytesOfWord]

/-- An instruction stands at an address when a word that decodes to it does. -/
theorem instrAt_iff {s : State} {a : Nat} {i : Instr} :
    s.InstrAt a i ↔
      ∃ w, Memory.readBytes s.text a 4 = some (bytesOfWord w) ∧ decodeWord w = .ok i := by
  constructor
  · rintro ⟨bs, tail, hbytes, hdecode⟩
    obtain ⟨w, rfl⟩ := exists_word_of_readBytes hbytes
    rw [decodeBytes_bytesOfWord_nil] at hdecode
    cases hword : decodeWord w with
    | error e => simp [hword, Except.map] at hdecode
    | ok j =>
      obtain ⟨rfl, -⟩ := by simpa [hword, Except.map] using hdecode
      exact ⟨w, hbytes, hword⟩
  · rintro ⟨w, hbytes, hword⟩
    exact ⟨_, [], hbytes, by rw [decodeBytes_bytesOfWord_nil, hword, Except.map]⟩

/-- The fetch faults at the end address and nowhere else (R127). -/
theorem fetch_eq_fault {s : State} {f : Fault} : fetch s = .fault f ↔ s.endAddr = some s.pc := by
  unfold fetch
  cases f
  split
  · simp [*]
  · simp only [*, iff_false]
    split
    · nofun
    · split
      · nofun
      · split <;> nofun

/-- What the fetch refuses, once the run is not over: a misaligned `pc` (R26), nothing at `pc` (R44),
a word that is no instruction (R66). -/
theorem fetch_eq_refused {s : State} {r : Refusal} :
    fetch s = .refused r ↔ s.endAddr ≠ some s.pc ∧
      ((s.pc % 4 ≠ 0 ∧ r = .pcMisaligned) ∨
        (s.pc % 4 = 0 ∧ Memory.readBytes s.text s.pc 4 = none ∧ r = .noInstructionAtPc) ∨
        (s.pc % 4 = 0 ∧ (∃ w, Memory.readBytes s.text s.pc 4 = some (bytesOfWord w) ∧
          isVperm w = false ∧ isVperm128 w = false) ∧ r = .wordNotSpecified)) := by
  unfold fetch
  by_cases hend : s.endAddr = some s.pc
  · simp [hend]
  by_cases haligned : s.pc % 4 = 0
  swap
  · simp [hend, haligned, @eq_comm _ r]
  cases hbytes : Memory.readBytes s.text s.pc 4 with
  | none => simp [hend, haligned, @eq_comm _ r]
  | some bs =>
    obtain ⟨w, rfl⟩ := exists_word_of_readBytes hbytes
    have hdecode := decodeBytes_bytesOfWord_nil w
    obtain ⟨hv, hd⟩ | ⟨hv, hv128, hd⟩ | ⟨hv, hv128, hd⟩ := decodeWord_cases w
    · simp [hend, haligned, hdecode, Except.map, hd, hv]
    · simp [hend, haligned, hdecode, Except.map, hd, hv128]
    · simp [hend, haligned, hdecode, Except.map, hd, hv, hv128, @eq_comm _ r]

/-- The instructions refuse for want of the vector unit (R101), then for want of room (R25). -/
theorem exec_eq_refused {i : Instr} {s : State} {r : Refusal} :
    exec i s = .refused r ↔
      (s.vecEnabled = false ∧ r = .vectorUnitUnavailable) ∨
        (s.vecEnabled = true ∧ 2 ^ s.pcBits ≤ s.pc + 4 ∧ r = .pcOverflow) := by
  obtain ⟨vd, va, vb, vc, -, hexec, -⟩ := exec_cases i
  rw [hexec, permuteStep_eq_refused]

/-- What refuses a step: the fetch, or the instruction that it gives. -/
theorem step_eq_refused_iff_fetch_or_exec {s : State} {r : Refusal} :
    step s = .refused r ↔
      fetch s = .refused r ∨ ∃ i, fetch s = .next i ∧ exec i s = .refused r := by
  unfold step
  cases fetch s <;> simp

/-- Everything that refuses a step: what the fetch refuses, and what an instruction refuses where one
is at `pc`. -/
theorem step_eq_refused {s : State} {r : Refusal} :
    step s = .refused r ↔
      (s.endAddr ≠ some s.pc ∧
        ((s.pc % 4 ≠ 0 ∧ r = .pcMisaligned) ∨
          (s.pc % 4 = 0 ∧ Memory.readBytes s.text s.pc 4 = none ∧ r = .noInstructionAtPc) ∨
          (s.pc % 4 = 0 ∧ (∃ w, Memory.readBytes s.text s.pc 4 = some (bytesOfWord w) ∧
            isVperm w = false ∧ isVperm128 w = false) ∧ r = .wordNotSpecified))) ∨
      (s.endAddr ≠ some s.pc ∧ s.pc % 4 = 0 ∧ (∃ i, s.InstrAt s.pc i) ∧
        ((s.vecEnabled = false ∧ r = .vectorUnitUnavailable) ∨
          (s.vecEnabled = true ∧ 2 ^ s.pcBits ≤ s.pc + 4 ∧ r = .pcOverflow))) := by
  simp only [step_eq_refused_iff_fetch_or_exec, fetch_eq_refused, fetch_eq_next, exec_eq_refused,
    exists_and_right, exists_and_left, and_assoc]

/-- What faults a step: the fetch alone. -/
theorem step_eq_fault {s : State} {f : Fault} : step s = .fault f ↔ s.endAddr = some s.pc := by
  rw [← fetch_eq_fault (f := f)]
  unfold step
  cases fetch s with
  | next i => simp [noExceptionIsRaised i s]
  | fault f => simp
  | refused r => simp

/-- Settles O36: the fault is the fetch's alone, and each refusal has one of the disjuncts of
`step_eq_refused` to itself; none of them is a want of a meaning. -/
theorem stepStopsExactlyWhen : Obligations.StepStopsExactlyWhen := by
  intro s
  refine ⟨step_eq_fault, ?_, ?_, ?_, ?_, ?_, fun m => ?_⟩ <;>
    simp [step_eq_refused, isVperm, isVperm128]

end Sys2Proof.Machine
end

section
/-! PROOF. The pair of sources and the laws of the permute (40_vector_permute.md R84, R92). -/

namespace Sys2Proof.Machine

/-- R84: byte `i` of `PERM` is the byte of the pair that the selector's index names. -/
theorem vecByte_perm_of_selIndex {a b c : Vec128} {i : Fin 16} {k : Fin 32}
    (h : selIndex c i = k.val) : vecByte (perm a b c) i = pairByte a b k := by
  rw [selIndex] at h
  simp only [vecByte_perm, selectByte, pairByte, h]

/-- The mask whose selector `i` is the number `f i` (R84). -/
def maskOf (f : Fin 16 → Fin 32) : Vec128 := vecOfBytes fun i => BitVec.ofNat 8 (f i).val

@[simp] theorem selIndex_maskOf (f : Fin 16 → Fin 32) (i : Fin 16) :
    selIndex (maskOf f) i = (f i).val := by
  have hlow : (f i).val % 2 ^ 8 &&& (2 ^ 5 - 1) = (f i).val := by
    rw [Nat.and_two_pow_sub_one_eq_mod]
    omega
  rw [selIndex, maskOf, vecByte_vecOfBytes, BitVec.toNat_and, BitVec.toNat_ofNat]
  exact hlow

/-- Settles O3: the two clauses of R80 are one over the pair, and a mask can name any of its bytes at
each place. -/
theorem permReadsThePair : Obligations.PermReadsThePair :=
  ⟨fun _ _ _ _ _ h => vecByte_perm_of_selIndex h,
    fun f => ⟨maskOf f, fun _ _ i => vecByte_perm_of_selIndex (selIndex_maskOf f i)⟩⟩

theorem perm_eq_left {a b c : Vec128} (h : ∀ i, selIndex c i = i.val) : perm a b c = a :=
  vec_ext fun i => by rw [vecByte_perm, selectByte_of_index_left (h i)]

theorem perm_eq_right {a b c : Vec128} (h : ∀ i, selIndex c i = 16 + i.val) : perm a b c = b :=
  vec_ext fun i => by rw [vecByte_perm, selectByte_of_index_right (h i)]

theorem xor_and_distrib_right (x y z : Byte) : (x ^^^ y) &&& z = (x &&& z) ^^^ (y &&& z) :=
  BitVec.eq_of_toNat_eq <| by
    simp only [BitVec.toNat_and, BitVec.toNat_xor, Nat.and_xor_distrib_right]

/-- Flipping the weight-16 bit names the same byte of the other source (R92 (d)). -/
theorem selectByte_flip (a b : Vec128) (sel : Byte) :
    selectByte b a (sel ^^^ 0x10#8) = selectByte a b sel := by
  have hlt : (sel &&& 0x0F#8).toNat < 16 := by
    rw [BitVec.toNat_and]
    exact Nat.and_lt_two_pow (n := 4) _ (by decide)
  have hlow : (sel ^^^ 0x10#8) &&& 0x0F#8 = sel &&& 0x0F#8 := by
    rw [xor_and_distrib_right]
    exact BitVec.xor_zero
  have hbit : (sel ^^^ 0x10#8) &&& 0x10#8 = (sel &&& 0x10#8) ^^^ 0x10#8 :=
    xor_and_distrib_right sel 0x10#8 0x10#8
  rcases and_0x10_cases sel with hclear | hset
  · rw [hclear] at hbit
    rw [selectByte_of_index_left (k := ⟨_, hlt⟩) (selectorIndex_of_bit_clear hclear),
      selectByte_of_index_right (k := ⟨_, hlt⟩) (by rw [selectorIndex_of_bit_set hbit, hlow])]
  · rw [hset] at hbit
    rw [selectByte_of_index_right (k := ⟨_, hlt⟩) (selectorIndex_of_bit_set hset),
      selectByte_of_index_left (k := ⟨_, hlt⟩) (by rw [selectorIndex_of_bit_clear hbit, hlow])]

/-- Settles O5: each law is one about the byte that one selector chooses. -/
theorem permIdentityAndSwapLaws : Obligations.PermIdentityAndSwapLaws := by
  refine ⟨fun _ _ _ => perm_eq_left, fun _ _ _ => perm_eq_right, fun a b c c' h => ?_,
    fun a b c => ?_, fun a c i k h => ?_⟩
  · exact vec_ext fun i => by
      rw [vecByte_perm, vecByte_perm, selectByte_congr (BitVec.eq_of_toNat_eq (h i))]
  · exact vec_ext fun i => by
      rw [vecByte_perm, vecByte_perm, vecByte_vecOfBytes, selectByte_flip]
  · rw [vecByte_perm, selectByte_self h]

/-- Settles O6: splat and shift read the pair at a known index, every index is one of a source's
bytes, and composition follows a byte through two permutes with equal sources. -/
theorem permSplatShiftAndCompositionLaws : Obligations.PermSplatShiftAndCompositionLaws := by
  refine ⟨fun a b c k h i => vecByte_perm_of_selIndex (h i),
    fun a b c sh _ h i k hk => vecByte_perm_of_selIndex ((h i).trans hk.symm),
    fun a b c i => ?_, fun a c1 c2 i j k hj hk => ?_⟩
  · obtain ⟨k, hk⟩ | ⟨k, hk⟩ := selectorIndex_cases (vecByte c i)
    · exact ⟨k, .inl (by rw [vecByte_perm, selectByte_of_index_left hk])⟩
    · exact ⟨k, .inr (by rw [vecByte_perm, selectByte_of_index_right hk])⟩
  · rw [vecByte_perm, selectByte_self hj, vecByte_perm, selectByte_self hk]

/-- Settles O33: the instruction completes with `PERM` of its sources, whose bytes are those of the
pair. -/
theorem unalignedViewIdiom : Obligations.UnalignedViewIdiom := by
  intro vd va vb vc s sh henabled _ hmask
  obtain ⟨t, hexec⟩ := exec_completes_of_enabled henabled (.vperm vd va vb vc)
  have hresult : t.readVr vd = perm (s.readVr va) (s.readVr vb) (s.readVr vc) :=
    readVr_destOf_of_exec hexec
  refine ⟨t, hexec, fun i k hk => ?_⟩
  rw [hresult, vecByte_perm_of_selIndex ((hmask i).trans hk.symm)]

end Sys2Proof.Machine
end

section
/-! PROOF. The words of `vperm128` and the registers they name (30_encoding.md R65, R69, R71, R72),
and the text of a word (R78). -/

namespace Sys2Proof

/-- Settles O9: the decoder tests the mask, which keeps the primary opcode and bits 22 and 27. -/
theorem vperm128WordsExactly : Obligations.Vperm128WordsExactly := by
  intro w
  refine ⟨?_, (and_vperm128Mask_eq_iff w).symm⟩
  rw [← isVperm128_iff]
  constructor
  · rintro ⟨vd, va, vb, vc, h⟩
    exact (decodeWord_eq_vperm128.mp h).1
  · exact fun h => ⟨_, _, _, _, decodeWord_eq_vperm128.mpr ⟨h, rfl, rfl, rfl, rfl⟩⟩

/-- A number in two pieces, 5 bits below and 2 above, is the pieces put side by side. -/
theorem high_mul_32_add_low_eq_or {high low : Nat} (hhigh : high < 2 ^ 2) (hlow : low < 2 ^ 5) :
    high * 32 + low = low ||| high <<< 5 := by
  rw [or_shiftLeft_eq_add low high 5 2 hhigh (by omega)]
  omega

/-- Settles O13: each number is below 128, so it is the register's, and its pieces do not overlap. -/
theorem vperm128OtherRegisterNumbers : Obligations.Vperm128OtherRegisterNumbers := by
  intro w vd va vb vc h
  obtain ⟨-, rfl, -, rfl, rfl⟩ := decodeWord_eq_vperm128.mp h
  have hd := vd128_lt w
  have hb := vb128_lt w
  have hc := vc128_lt w
  rw [vreg_val hd, vreg_val hb, vreg_val (by omega)]
  exact ⟨⟨rfl, by omega, high_mul_32_add_low_eq_or (field_lt w 28 29) (field_lt w 6 10)⟩,
    ⟨rfl, by omega, high_mul_32_add_low_eq_or (field_lt w 30 31) (field_lt w 16 20)⟩,
    rfl, by omega, rfl⟩

/-- A register as it is printed: `v` and its number in decimal (D22). -/
def registerChars (r : VReg) : List Char := 'v' :: Nat.toDigits 10 r.val

/-- The text of an instruction cut at its commas (R76, R78). -/
def textPieces : Instr → List (List Char)
  | .vperm vd va vb vc => ("vperm ".toList ++ registerChars vd) ::
      [va, vb, vc].map fun r => ' ' :: registerChars r
  | .vperm128 vd va vb vc => ("vperm128 ".toList ++ registerChars vd) ::
      [va, vb, vc].map fun r => ' ' :: registerChars r

theorem comma_notMem_registerChars (r : VReg) : ',' ∉ registerChars r := by
  have hdigits : ',' ∉ Nat.toDigits 10 r.val := fun h =>
    absurd (Nat.isDigit_of_mem_toDigits (by decide) (by decide) h) (by decide)
  simp [registerChars, hdigits]

theorem registerChars_inj {r r' : VReg} : registerChars r = registerChars r' ↔ r = r' := by
  rw [registerChars, registerChars, List.cons_inj_right, ← Nat.toList_repr, ← Nat.toList_repr,
    String.toList_inj, Nat.repr_inj, Fin.ext_iff]

theorem text_eq_intercalate (i : Instr) : i.text.toList = [','].intercalate (textPieces i) := by
  cases i <;> simp [Instr.text, operandText, textPieces, registerChars, List.intercalate]

theorem comma_notMem_textPieces (i : Instr) : ∀ p ∈ textPieces i, ',' ∉ p := by
  cases i <;> simp [textPieces, comma_notMem_registerChars]

/-- The commas of a text show its pieces. -/
theorem splitOn_text (i : Instr) : List.splitOn ',' i.text.toList = textPieces i := by
  rw [text_eq_intercalate]
  exact List.splitOn_intercalate ',' (comma_notMem_textPieces i) (by cases i <;> simp [textPieces])

/-- The text of an instruction determines it: the first piece shows the mnemonic, and each piece its
register. -/
theorem text_injective {i j : Instr} (h : i.text = j.text) : i = j := by
  have hpieces : textPieces i = textPieces j := by rw [← splitOn_text, h, splitOn_text]
  match i, j with
  | .vperm .., .vperm .. | .vperm128 .., .vperm128 .. =>
    simpa [textPieces, registerChars_inj] using hpieces
  | .vperm .., .vperm128 .. | .vperm128 .., .vperm .. => simp [textPieces] at hpieces

/-- Settles O17: the text gives the instruction, and the instruction the word it was decoded from. -/
theorem assemblyTextNamesOneWord : Obligations.AssemblyTextNamesOneWord := by
  intro w1 w2 i1 i2 h1 h2 htext
  rw [← encode_of_decodeWord h1, ← encode_of_decodeWord h2, text_injective htext]

end Sys2Proof
end

section
/-! PROOF. One instruction and one after another: the whole effect, the shared register file, and
what an instruction does not look at (10_state.md R20, R21, R24, 40_vector_permute.md R81, R82). -/

namespace Sys2Proof.Machine

/-- The whole effect of an instruction in an enabled state (R29, R81, R82). -/
theorem exec_effect_of_enabled {s : State} (h : s.Enabled) (i : Instr) :
    ∃ t, exec i s = .next t ∧ t.readVr (destOf i) = resultOf i s ∧
      (∀ n, n ≠ destOf i → t.readVr n = s.readVr n) ∧
      t.pc = s.pc + 4 ∧ t.rest = s.rest ∧ s.SameLaunch t := by
  obtain ⟨t, hexec⟩ := exec_completes_of_enabled h i
  exact ⟨t, hexec, readVr_destOf_of_exec hexec, fun _ => readVr_of_exec_of_ne hexec,
    frame_of_exec hexec⟩

/-- Settles O19, as the effect of any instruction. -/
theorem vpermCompletes : Obligations.VpermCompletes :=
  fun vd va vb vc _ hvec hroom => exec_effect_of_enabled ⟨hvec, hroom⟩ (.vperm vd va vb vc)

/-- Settles O20, as the effect of any instruction. -/
theorem vperm128Completes : Obligations.Vperm128Completes :=
  fun vd va vb vc _ hvec hroom => exec_effect_of_enabled ⟨hvec, hroom⟩ (.vperm128 vd va vb vc)

/-- Settles O22: the mask makes the word a `vperm128` of the registers its pieces name, and the step
is the execution of it. -/
theorem stepOnVperm128Word : Obligations.StepOnVperm128Word := by
  intro s w hend haligned hbytes hmask hvec hroom
  have hword : decodeWord w = .ok (.vperm128 (vreg (vd128 w)) (vreg (va128 w)) (vreg (vb128 w))
      (vreg (vc128 w))) :=
    decodeWord_eq_vperm128.mpr
      ⟨(isVperm128_iff w).mpr ((and_vperm128Mask_eq_iff w).mp hmask), rfl, rfl, rfl, rfl⟩
  rw [step_eq_exec_of_word hend haligned hbytes hword]
  exact exec_effect_of_enabled ⟨hvec, hroom⟩ _

/-- Settles O31: what one instruction leaves is the state the next one reads. -/
theorem nextInstructionReadsTheNewValue : Obligations.NextInstructionReadsTheNewValue := by
  intro i j s t u hi hj
  refine ⟨readVr_destOf_of_exec hi, readVr_destOf_of_exec hj, fun hne => ?_⟩
  rw [readVr_of_exec_of_ne hj hne.symm, readVr_destOf_of_exec hi]

/-- Settles O29: both instructions read and write `vr`, and an instruction has a word exactly when it
is well formed. -/
theorem oneSharedRegisterFile : Obligations.OneSharedRegisterFile := by
  refine ⟨fun n vd va vb vc vb' vc' s t u ht hu => ?_, fun n vd va vb vc vb' vc' s t u ht hu => ?_,
    fun vd va vb vc => ?_, fun vd va vb vc => ?_⟩
  · exact (readVr_destOf_of_exec hu).trans (congrArg (perm · _ _) (readVr_destOf_of_exec ht))
  · exact (readVr_destOf_of_exec hu).trans (congrArg (perm · _ _) (readVr_destOf_of_exec ht))
  · rw [exists_decodeWord_eq_iff, vperm_wf_iff]
    omega
  · rw [exists_decodeWord_eq_iff, vperm128_wf_iff]
    omega

/-- Settles O30: a `vperm128` with VC = 0 has a word for every VD, VA and VB, and by the identity mask
it copies VA. -/
theorem everyRegisterCanBeReadAndWritten : Obligations.EveryRegisterCanBeReadAndWritten := by
  intro s n m henabled hmask
  obtain ⟨w, hw⟩ := exists_decodeWord_eq_iff.mpr
    (vperm128_wf_iff (vd := n) (va := m) (vb := m) (vc := 0) |>.mpr (by decide))
  obtain ⟨t, hexec, hresult, -⟩ := exec_effect_of_enabled henabled (.vperm128 n m m 0)
  exact ⟨w, t, hw, hexec, hresult.trans (perm_eq_left hmask)⟩

/-- What an instruction computes is read from vector registers alone. -/
theorem resultOf_congr {s s' : State} (h : s'.vr = s.vr) (i : Instr) :
    resultOf i s' = resultOf i s := by
  obtain ⟨vd, va, vb, vc, -, -, hresult⟩ := exec_cases i
  simp only [hresult, State.readVr, h]

/-- Settles O32: `pc` is looked at for the room above it and moved, and nothing computed reads it. -/
theorem pcIsNotReadAsData : Obligations.PcIsNotReadAsData := by
  intro i s t p h hroom
  obtain ⟨⟨hvec, -⟩, rfl⟩ := exec_eq_next.mp h
  refine exec_eq_next.mpr ⟨⟨hvec, hroom⟩, ?_⟩
  rw [resultOf_congr (withPc_vr s p), withPc_withPc, withPc_writeVr, withPc_withPc, withPc_pc]

end Sys2Proof.Machine
end

section
/-! PROOF. The listed words and the state after reset (95_test_vectors.md section 2.1,
70_reset_and_hazards.md section 1). -/

namespace Sys2Proof.Machine

/-- Settles O18, each word by evaluation of the decoder. -/
theorem tableWordsDecodeAsListed : Obligations.TableWordsDecodeAsListed := by
  refine ⟨?_, ?_, ?_, ?_, ?_, ?_, ?_⟩ <;> decide

/-- Settles O39: `pc` is 0, no end address is set, and no memory is listed. -/
theorem resetMeetsTheInvariant : Obligations.ResetMeetsTheInvariant :=
  ⟨rfl, Nat.two_pow_pos _, rfl, reset_text_wf, reset_mem_wf⟩

/-- Settles O40: the run is not over, `pc` is aligned, and the text is empty. -/
theorem resetAwaitsALaunch : Obligations.ResetAwaitsALaunch :=
  step_eq_refused.mpr (.inl ⟨nofun, .inr (.inl ⟨rfl, rfl, rfl⟩)⟩)

end Sys2Proof.Machine
end

section
/-! PROOF. Memories in canonical form are determined by what they read (log entries 4 and 5). -/

namespace Sys2Proof.Machine

/-- An address that no cell has reads as nothing. -/
theorem Memory.read_eq_none {m : Memory} {a : Nat} (h : ∀ c ∈ m, a ≠ c.1) :
    Memory.read m a = none := by
  induction m with
  | nil => rfl
  | cons c m ih =>
    obtain ⟨hne, hrest⟩ := List.forall_mem_cons.mp h
    rw [Memory.read, if_neg hne, ih hrest]

/-- The first address a canonical memory lists is the first it reads. -/
theorem Memory.le_of_read_eq_some {a x : Nat} {b y : Byte} {m : Memory}
    (hwf : Memory.wf ((a, b) :: m) = true) (h : Memory.read ((a, b) :: m) x = some y) : a ≤ x := by
  by_contra hlt
  obtain ⟨hfirst, -⟩ := Memory.wf_cons.mp hwf
  have hnone : Memory.read ((a, b) :: m) x = none := by
    refine Memory.read_eq_none (List.forall_mem_cons.mpr ⟨by simp only; omega, fun c hc => ?_⟩)
    have := hfirst c hc
    omega
  simp [hnone] at h

@[simp] theorem Memory.read_cons_self (a : Nat) (b : Byte) (m : Memory) :
    Memory.read ((a, b) :: m) a = some b := by
  simp [Memory.read]

/-- Behind the first cell of a canonical memory its address is not listed again. -/
theorem Memory.read_tail {a : Nat} {b : Byte} {m : Memory} (hwf : Memory.wf ((a, b) :: m) = true)
    (x : Nat) : Memory.read m x = if x = a then none else Memory.read ((a, b) :: m) x := by
  obtain ⟨hfirst, -⟩ := Memory.wf_cons.mp hwf
  by_cases hx : x = a
  · subst hx
    rw [if_pos rfl, Memory.read_eq_none fun c hc => (hfirst c hc).ne]
  · simp [Memory.read, hx]

/-- Settles O44, cell by cell: the first cells have the first address that reads, with the byte there,
and behind them the memories read alike again. -/
theorem canonicalMemoriesThatReadAlikeAreEqual :
    Obligations.CanonicalMemoriesThatReadAlikeAreEqual := by
  intro m
  induction m with
  | nil =>
    intro m' _ _ hread
    cases m' with
    | nil => rfl
    | cons c m' => simpa [Memory.read] using hread c.1
  | cons c m ih =>
    obtain ⟨a, b⟩ := c
    intro m' hwf hwf' hread
    cases m' with
    | nil => simpa [Memory.read] using hread a
    | cons c' m' =>
      obtain ⟨a', b'⟩ := c'
      have hle : a ≤ a' := Memory.le_of_read_eq_some hwf ((hread a').trans (Memory.read_cons_self ..))
      have hle' : a' ≤ a :=
        Memory.le_of_read_eq_some hwf' ((hread a).symm.trans (Memory.read_cons_self ..))
      obtain rfl : a = a' := Nat.le_antisymm hle hle'
      obtain rfl : b = b' := by simpa using hread a
      have htails : m = m' := ih m' (Memory.wf_cons.mp hwf).2 (Memory.wf_cons.mp hwf').2 fun x => by
        rw [Memory.read_tail hwf, Memory.read_tail hwf', hread]
      rw [htails]

end Sys2Proof.Machine
end

section
/-! PROOF. The text of a launched program (70_reset_and_hazards.md R120, R127). -/

namespace Sys2Proof.Machine

theorem Memory.readBytes_congr {m m' : Memory} {a n : Nat}
    (h : ∀ k < n, Memory.read m (a + k) = Memory.read m' (a + k)) :
    Memory.readBytes m a n = Memory.readBytes m' a n := by
  induction n generalizing a with
  | zero => rfl
  | succ n ih =>
    have hrest : Memory.readBytes m (a + 1) n = Memory.readBytes m' (a + 1) n :=
      ih fun k hk => by simpa [Nat.add_assoc, Nat.add_comm 1] using h (k + 1) (by omega)
    have hfirst : Memory.read m a = Memory.read m' a := h 0 (by omega)
    rw [Memory.readBytes, Memory.readBytes, hrest, hfirst]

/-- A word written elsewhere leaves an address as it was. -/
theorem Memory.read_writeWord_of_outside {m : Memory} {a a' : Nat} {w : Word}
    (h : a' < a ∨ a + 4 ≤ a') : Memory.read (Memory.writeWord m a w) a' = Memory.read m a' := by
  have hlength : (bytesOfWord w).length = 4 := rfl
  rw [Memory.writeWord, Memory.read_writeBytes, if_neg (by omega)]

/-- Nothing is placed before a program or behind it. -/
theorem read_programText_outside {base a : Nat} {ws : List Word}
    (h : a < base ∨ base + 4 * ws.length ≤ a) : Memory.read (programText base ws) a = none := by
  induction ws generalizing base with
  | nil => rfl
  | cons w ws ih =>
    rw [List.length_cons] at h
    rw [programText, Memory.read_writeWord_of_outside (by omega), ih (by omega)]

/-- Word `k` of a program stands at `base + 4 * k`, whatever the base. -/
theorem readBytes_programText (base : Nat) (ws : List Word) (k : Nat) :
    Memory.readBytes (programText base ws) (base + 4 * k) 4 = ws[k]?.map bytesOfWord := by
  induction ws generalizing base k with
  | nil => rfl
  | cons w ws ih =>
    cases k with
    | zero => exact Memory.readBytes_writeWord _ base w
    | succ k =>
      have hplace : base + 4 * (k + 1) = base + 4 + 4 * k := by ring
      rw [programText, hplace,
        Memory.readBytes_congr fun _ _ => Memory.read_writeWord_of_outside (by omega), ih,
        List.getElem?_cons_succ]

/-- A launch at an aligned base meets the invariant. -/
theorem inv_launchProgram {s : State} {base : Nat} {ws : List Word} (haligned : base % 4 = 0)
    (hbase : base < 2 ^ s.pcBits) (hmem : Memory.wf s.rest.mem = true) :
    (s.launchProgram base ws).Inv := by
  refine ⟨haligned, hbase, ?_, programText_wf base ws, hmem⟩
  have hend : Memory.read (programText base ws) (base + 4 * ws.length) = none :=
    read_programText_outside (.inr (Nat.le_refl _))
  simp [State.endOk, State.launchProgram, hend, Nat.add_mod, haligned]

/-- Settles O41: the words stand where `programText` places them and nowhere else, and the end address
is the first behind them. -/
theorem launchPlacesExactlyTheWords : Obligations.LaunchPlacesExactlyTheWords := by
  intro s base ws
  refine ⟨fun k hk => ?_, fun a => read_programText_outside, rfl, rfl, rfl, rfl, rfl, rfl,
    fun haligned hbase hmem => ?_⟩
  · exact (readBytes_programText base ws k).trans (by rw [List.getElem?_eq_getElem hk]; rfl)
  · have hinv := inv_launchProgram (ws := ws) haligned hbase hmem
    refine ⟨hinv, fun hne hvec => ⟨hinv, hvec, ?_⟩⟩
    have hfirst : Memory.readBytes (programText base ws) base 4 = ws[0]?.map bytesOfWord :=
      readBytes_programText base ws 0
    have hlength := List.length_pos_iff.mpr hne
    simp [State.launchProgram, hfirst, hlength]

end Sys2Proof.Machine
end

section
/-! PROOF. Runs of several steps (70_reset_and_hazards.md R126, R127). -/

namespace Sys2Proof.Machine

theorem runSteps_succ_of_step {s t : State} (h : step s = .next t) (n : Nat) :
    runSteps (n + 1) s = runSteps n t := by
  rw [runSteps, h]

/-- A run that takes one step more has a first step. -/
theorem runSteps_succ_eq_next {n : Nat} {s t : State} :
    runSteps (n + 1) s = .next t ↔ ∃ u, step s = .next u ∧ runSteps n u = .next t := by
  rw [runSteps]
  cases step s <;> simp

/-- A run that has completed `n` steps goes on from where they lead. -/
theorem runSteps_add {n k : Nat} {s t : State} (h : runSteps n s = .next t) :
    runSteps (n + k) s = runSteps k t := by
  induction n generalizing s with
  | zero =>
    obtain rfl : s = t := by simpa [runSteps] using h
    rw [Nat.zero_add]
  | succ n ih =>
    obtain ⟨u, hstep, hrun⟩ := runSteps_succ_eq_next.mp h
    rw [Nat.add_right_comm, runSteps_succ_of_step hstep, ih hrun]

/-- At the end address every further step is the end of the run. -/
theorem runSteps_succ_of_endAddr {s : State} (h : s.endAddr = some s.pc) (n : Nat) :
    runSteps (n + 1) s = .fault .endOfRun := by
  rw [runSteps, step_eq_fault.mpr h]

theorem instrAt_congr {s t : State} (h : t.text = s.text) {a : Nat} {i : Instr} :
    t.InstrAt a i ↔ s.InstrAt a i := by
  rw [instrAt_iff, instrAt_iff, h]

/-- A straight line of `n` instructions completes. -/
theorem runSteps_straightLine {n : Nat} {s : State} (haligned : s.pc % 4 = 0)
    (hvec : s.vecEnabled = true) (hroom : s.pc + 4 * n < 2 ^ s.pcBits)
    (hline : ∀ k < n, s.endAddr ≠ some (s.pc + 4 * k) ∧ ∃ i, s.InstrAt (s.pc + 4 * k) i) :
    ∃ t, runSteps n s = .next t ∧ t.pc = s.pc + 4 * n ∧ t.rest = s.rest ∧ s.SameLaunch t := by
  induction n generalizing s with
  | zero => exact ⟨s, rfl, rfl, rfl, rfl, rfl, rfl, rfl⟩
  | succ n ih =>
    obtain ⟨hend, hinstr⟩ := hline 0 (by omega)
    obtain ⟨u, hstep⟩ :=
      (stepCompletesExactlyWhen s).mpr ⟨hend, haligned, hinstr, hvec, by omega⟩
    obtain ⟨⟨htext, hend', hvec', hbits⟩, hrest, hpc, -⟩ := stepLeavesLaunchAndRest s u hstep
    have hline' : ∀ k < n, u.endAddr ≠ some (u.pc + 4 * k) ∧ ∃ i, u.InstrAt (u.pc + 4 * k) i := by
      intro k hk
      have hplace : u.pc + 4 * k = s.pc + 4 * (k + 1) := by omega
      simp only [hend', hplace, instrAt_congr htext]
      exact hline (k + 1) (by omega)
    obtain ⟨t, hrun, htpc, htrest, ht⟩ :=
      ih (by omega) (hvec'.trans hvec) (by rw [hbits]; omega) hline'
    refine ⟨t, (runSteps_succ_of_step hstep n).trans hrun, by omega, htrest.trans hrest, ?_⟩
    rwa [State.SameLaunch, ← htext, ← hend', ← hvec', ← hbits]

/-- Settles O42: the run leads to the end address, where the next step is the end. -/
theorem straightLineRunsToItsEnd : Obligations.StraightLineRunsToItsEnd := by
  intro n s haligned hvec hroom hline
  obtain ⟨t, hrun, hpc, hrest, hlaunch⟩ := runSteps_straightLine haligned hvec hroom hline
  refine ⟨t, hrun, hpc, hrest, hlaunch, fun hend m => ?_⟩
  obtain ⟨-, hend', -⟩ := hlaunch
  rw [Nat.add_assoc, runSteps_add hrun, Nat.add_comm 1]
  exact runSteps_succ_of_endAddr (by rw [hend', hend, hpc]) m

end Sys2Proof.Machine
end

section
/-! PROOF. A program does the same at every base (70_reset_and_hazards.md section 1). -/

namespace Sys2Proof.Machine

/-- `s` stands at word `j` of the program `ws` launched at `base`. -/
structure AtWord (ws : List Word) (base j : Nat) (s : State) : Prop where
  text : s.text = programText base ws
  endAddr : s.endAddr = some (base + 4 * ws.length)
  pc : s.pc = base + 4 * j

/-- The two states differ in nothing but where the program lies and `pc` stands. -/
structure AlikeButPlace (s s' : State) : Prop where
  vr : s'.vr = s.vr
  rest : s'.rest = s.rest
  vecEnabled : s'.vecEnabled = s.vecEnabled
  pcBits : s'.pcBits = s.pcBits

theorem atWord_launchProgram (s : State) (base : Nat) (ws : List Word) :
    AtWord ws base 0 (s.launchProgram base ws) := ⟨rfl, rfl, rfl⟩

theorem alikeButPlace_launchProgram (s : State) (base base' : Nat) (ws : List Word) :
    AlikeButPlace (s.launchProgram base ws) (s.launchProgram base' ws) := ⟨rfl, rfl, rfl, rfl⟩

/-- The instruction that stands at word `j` is the one the word decodes to, whatever the base. -/
theorem AtWord.instrAt_pc_iff {ws : List Word} {base j : Nat} {s : State} (h : AtWord ws base j s)
    {i : Instr} : s.InstrAt s.pc i ↔ ∃ w, ws[j]? = some w ∧ decodeWord w = .ok i := by
  rw [instrAt_iff, h.text, h.pc, readBytes_programText]
  simp

/-- What a step can answer at word `j`. -/
theorem AtWord.step_eq_next {ws : List Word} {base j : Nat} {s t : State} (h : AtWord ws base j s)
    (haligned : base % 4 = 0) :
    step s = .next t ↔
      ∃ i, (∃ w, ws[j]? = some w ∧ decodeWord w = .ok i) ∧ exec i s = .next t := by
  simp only [step_eq_next_iff_exec, h.instrAt_pc_iff]
  refine ⟨fun ⟨_, _, hexec⟩ => hexec, fun hexec => ⟨?_, ?_, hexec⟩⟩
  · obtain ⟨_, ⟨w, hw, -⟩, -⟩ := hexec
    obtain ⟨hj, -⟩ := List.getElem?_eq_some_iff.mp hw
    rw [h.endAddr, h.pc, ne_eq, Option.some_inj]
    omega
  · rw [h.pc]
    omega

/-- An instruction leads from one word to the next. -/
theorem AtWord.next_of_exec {ws : List Word} {base j : Nat} {i : Instr} {s t : State}
    (h : AtWord ws base j s) (hexec : exec i s = .next t) : AtWord ws base (j + 1) t := by
  obtain ⟨hpc, -, htext, hend, -⟩ := frame_of_exec hexec
  exact ⟨htext.trans h.text, hend.trans h.endAddr, by rw [hpc, h.pc]; ring⟩

/-- An instruction with room for `pc` at the other place does there what it does here. -/
theorem AlikeButPlace.exists_exec {i : Instr} {s s' t : State} (h : AlikeButPlace s s')
    (hexec : exec i s = .next t) (hroom : s'.pc + 4 < 2 ^ s.pcBits) :
    ∃ t', exec i s' = .next t' ∧ AlikeButPlace t t' := by
  obtain ⟨⟨hvec, -⟩, rfl⟩ := exec_eq_next.mp hexec
  refine ⟨_, exec_eq_next.mpr ⟨⟨h.vecEnabled.trans hvec, by rwa [h.pcBits]⟩, rfl⟩, ?_⟩
  exact ⟨by simp only [withPc_vr, State.writeVr, resultOf_congr h.vr, h.vr], h.rest, h.vecEnabled,
    h.pcBits⟩

/-- A run at one base is matched, step by step, by the run at another. -/
theorem runSteps_relocate {ws : List Word} {base base' : Nat} (haligned : base % 4 = 0)
    (haligned' : base' % 4 = 0) {k j : Nat} {s s' t : State} (hs : AtWord ws base j s)
    (hs' : AtWord ws base' j s') (halike : AlikeButPlace s s')
    (hroom : base' + 4 * ws.length < 2 ^ s.pcBits) (hrun : runSteps k s = .next t) :
    ∃ t', runSteps k s' = .next t' ∧ AlikeButPlace t t' ∧ AtWord ws base (j + k) t ∧
      AtWord ws base' (j + k) t' := by
  induction k generalizing j s s' with
  | zero =>
    obtain rfl : s = t := by simpa [runSteps] using hrun
    exact ⟨s', rfl, halike, hs, hs'⟩
  | succ k ih =>
    obtain ⟨u, hstep, hrest⟩ := runSteps_succ_eq_next.mp hrun
    obtain ⟨i, ⟨w, hw, hword⟩, hexec⟩ := (hs.step_eq_next haligned).mp hstep
    obtain ⟨hj, -⟩ := List.getElem?_eq_some_iff.mp hw
    have hroom' : s'.pc + 4 < 2 ^ s.pcBits := by
      rw [hs'.pc]
      omega
    obtain ⟨u', hexec', halike'⟩ := halike.exists_exec hexec hroom'
    obtain ⟨-, -, -, -, -, hbits⟩ := frame_of_exec hexec
    have hstep' : step s' = .next u' :=
      (hs'.step_eq_next haligned').mpr ⟨i, ⟨w, hw, hword⟩, hexec'⟩
    obtain ⟨t', hrun', hend⟩ :=
      ih (hs.next_of_exec hexec) (hs'.next_of_exec hexec') halike' (by rwa [hbits]) hrest
    rw [Nat.add_right_comm] at hend
    exact ⟨t', (runSteps_succ_of_step hstep' k).trans hrun', hend⟩

/-- Settles O43: the two launches stand at word 0, alike but for the place, and after `k` steps at
word `k`. -/
theorem codeIsPositionIndependent : Obligations.CodeIsPositionIndependent := by
  intro s ws base base' k t haligned haligned' hroom hrun
  obtain ⟨t', hrun', halike, ht, ht'⟩ :=
    runSteps_relocate haligned haligned' (atWord_launchProgram s base ws)
      (atWord_launchProgram s base' ws) (alikeButPlace_launchProgram s base base' ws) hroom hrun
  exact ⟨t', hrun', halike.vr, halike.rest, by rw [ht.pc, ht'.pc]; ring⟩

end Sys2Proof.Machine
end
